-- ==== Sys2Proof/Word.lean ====
section
/-! DEFINITION. The words that cross the block's interface (20_memory.md R53, R55). -/

namespace Sys2Proof

/-- A duration or a count of ticks. TICK_W is a parameter of 8 to 32 bits (00_scope.md R7), so the value is held
zero-extended in the widest one; that it is below 2^TICK_W is an invariant (Safety.lean). -/
abbrev Ticks := BitVec 32

/-- The command word, `cmd[15:0]` (30_encoding.md R75). -/
abbrev CmdWord := BitVec 16

/-- The channel field of a command word (30_encoding.md R76). -/
abbrev ChanIdx := BitVec 4

/-- The electrical levels `ir_in`, channel k's level in bit k (30_encoding.md R70); NCH is at most 16. -/
abbrev Levels := BitVec 16

/-- The response data word (30_encoding.md R83). -/
abbrev DataWord := BitVec 32

end Sys2Proof
end

