-- ==== Sys2Proof/Syntax.lean ====
section
/-! DEFINITION. The block's instructions: one constructor per row of spec/opcode_table.json (00_scope.md R2: the host
commands and the TICK event). -/

namespace Sys2Proof

inductive Instr where
  /-- NOP c<ch> (41_host_commands.md R131). -/
  | nop (ch : ChanIdx)
  /-- RESUME c<ch> (41_host_commands.md R132). -/
  | resume (ch : ChanIdx)
  /-- DECODE c<ch> (42_frame_decode.md R150). -/
  | decode (ch : ChanIdx)
  /-- SETBLINK c<ch>, <en> (41_host_commands.md R134). -/
  | setblink (ch : ChanIdx) (en : Bool)
  /-- RDSTATUS c<ch> (41_host_commands.md R135). -/
  | rdstatus (ch : ChanIdx)
  /-- RDLEN c<ch> (41_host_commands.md R136). -/
  | rdlen (ch : ChanIdx)
  /-- RDELAPSED c<ch> (41_host_commands.md R137). -/
  | rdelapsed (ch : ChanIdx)
  /-- RDRAW c<ch>, <idx> (41_host_commands.md R138). -/
  | rdraw (ch : ChanIdx) (idx : BitVec 8)
  /-- TICK <L0>, <L1>, ...: channel k's level is bit k (40_tick_sampler.md R100, 30_encoding.md R72). -/
  | tick (irIn : Levels)
  deriving DecidableEq, Repr

/-- The channel field of a command (30_encoding.md R76); TICK has none, it steps every channel. -/
def Instr.channel? : Instr → Option ChanIdx
  | .nop ch => some ch
  | .resume ch => some ch
  | .decode ch => some ch
  | .setblink ch _ => some ch
  | .rdstatus ch => some ch
  | .rdlen ch => some ch
  | .rdelapsed ch => some ch
  | .rdraw ch _ => some ch
  | .tick _ => none

end Sys2Proof
end

