-- ==== Sys2Proof/WellFormed.lean ====
section
/-! DEFINITION. Which instruction terms have an encoding. Operand widths are in the types of Syntax.lean (30_encoding.md
R76, R86); the one check left is that a TICK carries one level per channel and no more (R84). -/

namespace Sys2Proof

/-- Well-formed for a block of `nch` channels. A command's channel may be any of 0..15: one in NCH..15 is encodable
and answered BAD_CHANNEL (30_encoding.md R86). -/
def Instr.wellFormed (nch : Nat) : Instr → Bool
  | .nop _ => true
  | .resume _ => true
  | .decode _ => true
  | .setblink _ _ => true
  | .rdstatus _ => true
  | .rdlen _ => true
  | .rdelapsed _ => true
  | .rdraw _ _ => true
  | .tick irIn => decide (irIn.toNat < 2 ^ nch)

end Sys2Proof
end

