-- ==== Sys2Proof/Decode.lean ====
section
/-! DEFINITION. The decoder of command words and TICK events, total and rejecting by name (30_encoding.md R72, R75 to
R79), and after it the encoder, written from the same tables. -/

namespace Sys2Proof

/-- What one cycle's ports can carry: a command word (format CMD, R75), or an event word (format EVT, R72), which is
`{tick, ir_in[NCH-1:0]}`: for one channel the 2-bit pattern `1L` (log 10). -/
inductive Wire where
  | cmd (w : CmdWord)
  | evt (w : BitVec 17)
  deriving DecidableEq, Repr

/-- Why a word is no instruction. -/
inductive DecodeError where
  /-- ILLEGAL: `op` is 0x8..0xF (30_encoding.md R78). -/
  | reservedOpcode
  /-- ILLEGAL: `imm8` has a 1 in a bit the opcode reserves (30_encoding.md R78). -/
  | reservedOperandBits
  /-- An EVT word whose strobe bit is 0: no TICK event (30_encoding.md R73). -/
  | noStrobe
  /-- An EVT word with bits above the strobe: no port carries them (30_encoding.md R72: "no other field"). -/
  | extraBits
  deriving DecidableEq, Repr

/-- `op = cmd[15:12]` (30_encoding.md R76). -/
def opOf (w : CmdWord) : BitVec 4 := w.extractLsb' 12 4

/-- `ch = cmd[11:8]` (30_encoding.md R76). -/
def chOf (w : CmdWord) : ChanIdx := w.extractLsb' 8 4

/-- `imm8 = cmd[7:0]` (30_encoding.md R76). -/
def immOf (w : CmdWord) : BitVec 8 := w.extractLsb' 0 8

/-- An opcode that reserves all of `imm8` (30_encoding.md R76, R77). -/
def noOperand (imm : BitVec 8) (i : Instr) : Except DecodeError Instr :=
  if imm = 0 then .ok i else .error .reservedOperandBits

/-- SETBLINK's operand: `en = imm8[0]`, `imm8[7:1]` reserved (30_encoding.md R76, R77). -/
def enableOperand (imm : BitVec 8) (f : Bool → Instr) : Except DecodeError Instr :=
  if imm.extractLsb' 1 7 = 0 then .ok (f (imm.getLsbD 0)) else .error .reservedOperandBits

/-- The opcode map of 30_encoding.md R77, with the checks of R79 that do not need NCH. The channel check comes after
these (60_exceptions.md R209) and stands in the commands' shared operation (Machine/Operands.lean). -/
def decodeCmd (w : CmdWord) : Except DecodeError Instr :=
  match (opOf w).toNat with
  | 0 => noOperand (immOf w) (.nop (chOf w))
  | 1 => noOperand (immOf w) (.resume (chOf w))
  | 2 => noOperand (immOf w) (.decode (chOf w))
  | 3 => enableOperand (immOf w) (.setblink (chOf w))
  | 4 => noOperand (immOf w) (.rdstatus (chOf w))
  | 5 => noOperand (immOf w) (.rdlen (chOf w))
  | 6 => noOperand (immOf w) (.rdelapsed (chOf w))
  | 7 => .ok (.rdraw (chOf w) (immOf w))
  | _ => .error .reservedOpcode

/-- The EVT word of a block with `nch` channels: the strobe in bit `nch`, the levels below it (30_encoding.md R72). -/
def decodeEvt (nch : Nat) (w : BitVec 17) : Except DecodeError Instr :=
  match w.toNat / 2 ^ nch with
  | 0 => .error .noStrobe
  | 1 => .ok (.tick (BitVec.ofNat 16 (w.toNat % 2 ^ nch)))
  | _ => .error .extraBits

/-- The decoder of everything the ports of a block with `nch` channels can carry. -/
def decodeWire (nch : Nat) : Wire → Except DecodeError Instr
  | .cmd w => decodeCmd w
  | .evt w => decodeEvt nch w

/-- A word of spec/opcode_table.json as the ports carry it: the table's TICK row has the two bits `1L` of one channel,
one byte at most, and every command row has 16 bits. -/
def wireOfTableWord (nbits w : Nat) : Option Wire :=
  if nbits ≤ 8 then
    if w < 2 ^ 8 then some (.evt (BitVec.ofNat 17 w)) else none
  else if nbits ≤ 16 then
    if w < 2 ^ 16 then some (.cmd (BitVec.ofNat 16 w)) else none
  else none

/-- The instruction the decoder reads from a word numbered as spec/opcode_table.json numbers it (one channel: the
table gives TICK one level). -/
def decodeTableWord (nbits w : Nat) : Option Instr :=
  match wireOfTableWord nbits w with
  | none => none
  | some x =>
    match decodeWire 1 x with
    | .ok i => some i
    | .error _ => none

/-! ## The encoder -/

/-- `{op, ch, imm8}` (30_encoding.md R75, R84). -/
def cmdWord (op : BitVec 4) (ch : ChanIdx) (imm : BitVec 8) : CmdWord := op ++ ch ++ imm

/-- `{1, ir_in[NCH-1:0]}` (30_encoding.md R72). -/
def evtWord (nch : Nat) (irIn : Levels) : BitVec 17 := BitVec.ofNat 17 (2 ^ nch + irIn.toNat)

/-- The encoding table of 30_encoding.md R84. -/
def encode (nch : Nat) : Instr → Wire
  | .nop ch => .cmd (cmdWord 0x0 ch 0)
  | .resume ch => .cmd (cmdWord 0x1 ch 0)
  | .decode ch => .cmd (cmdWord 0x2 ch 0)
  | .setblink ch en => .cmd (cmdWord 0x3 ch (if en then 1 else 0))
  | .rdstatus ch => .cmd (cmdWord 0x4 ch 0)
  | .rdlen ch => .cmd (cmdWord 0x5 ch 0)
  | .rdelapsed ch => .cmd (cmdWord 0x6 ch 0)
  | .rdraw ch idx => .cmd (cmdWord 0x7 ch idx)
  | .tick irIn => .evt (evtWord nch irIn)

end Sys2Proof
end

