-- ==== Sys2Proof/Config.lean ====
section
/-! DEFINITION. The parameters of 00_scope.md R7 as plain data, and the free values: what the spec leaves open for
every implementation, as constants that nothing can evaluate. NCH, the one parameter of R7 that is not here, is the
number of channels a State holds (log 1). -/

namespace Sys2Proof

/-- CNT_MODE, the counter's overflow behaviour (00_scope.md R7, 40_tick_sampler.md R103). -/
inductive CntMode where
  | wrap
  | saturate
  deriving DecidableEq, Repr

/-- The parameters of 00_scope.md R7, under the names of its table. Durations are counts of ticks (R12). -/
structure Config where
  /-- TICK_US: informative, no rule reads it (R7). -/
  tickUs     : Nat
  /-- MARK_LEVEL: the electrical level that means MARK. -/
  markLevel  : Bool
  /-- TICK_W: the width of the counter and of every buffer entry. -/
  tickW      : Nat
  /-- CNT_MODE. -/
  cntMode    : CntMode
  /-- CAPACITY: the number of entries of `rawBuffer`. -/
  capacity   : Nat
  /-- GAP_TICKS: the gap threshold. -/
  gapTicks   : Nat
  /-- N_BITS: the framed protocol's fixed bit count. -/
  nBits      : Nat
  /-- HDR_MARK: the expected header MARK. -/
  hdrMark    : Nat
  /-- HDR_SPACE: the expected header-equivalent SPACE. -/
  hdrSpace   : Nat
  /-- ONE_MARK: the expected MARK of a one. -/
  oneMark    : Nat
  /-- ZERO_MARK: the expected MARK of a zero. -/
  zeroMark   : Nat
  /-- TOL_ABS: the absolute margin. -/
  tolAbs     : Nat
  /-- TOL_PCT: the percentage margin. -/
  tolPct     : Nat
  /-- HASH_TOL_PCT: the band of the hash comparison. -/
  hashTolPct : Nat
  /-- FNV_BASIS: the hash seed. -/
  fnvBasis   : BitVec 32
  /-- FNV_PRIME: the hash multiplier. -/
  fnvPrime   : BitVec 32
  deriving DecidableEq, Repr

namespace Config

/-- REF, the reference configuration (00_scope.md R7, 92_eei_decisions.md D23), but for NCH = 1. -/
def ref : Config :=
  { tickUs := 50, markLevel := false, tickW := 16, cntMode := .wrap, capacity := 100, gapTicks := 100,
    nBits := 12, hdrMark := 48, hdrSpace := 12, oneMark := 24, zeroMark := 12, tolAbs := 2, tolPct := 25,
    hashTolPct := 20, fnvBasis := 0x811C9DC5, fnvPrime := 0x01000193 }

/-- SMALL: REF with GAP_TICKS = 10, CAPACITY = 8 and TICK_W = 8 (95_test_vectors.md). -/
def small : Config := { ref with gapTicks := 10, capacity := 8, tickW := 8 }

/-- RSP_LAT (30_encoding.md R74, OPEN): the cycles beyond the first one that the command accepted under this free
index waits for its `rsp_valid`. "≥ 1; may differ per command": the latency is this value plus one (log 4). -/
opaque freeRspWait : Nat → Nat

/-- Whether `cmd_ready` is already 1 in the cycle that asserts `rsp_valid`: 30_encoding.md R74 says "until the cycle
in which it asserts `rsp_valid`" and does not say whether that cycle counts (log 5). -/
opaque readyInResponseCycle : Bool

/-- `rsp_status` in a cycle with `rsp_valid = 0` (30_encoding.md R80: "any value"; log 6). -/
opaque freeRspStatus : Nat → BitVec 3

/-- `rsp_tag` in a cycle with `rsp_valid = 0` (30_encoding.md R80; log 6). -/
opaque freeRspTag : Nat → BitVec 2

/-- `rsp_bits` in a cycle with `rsp_valid = 0` (30_encoding.md R80; log 6). -/
opaque freeRspBits : Nat → BitVec 16

/-- `rsp_data` in a cycle with `rsp_valid = 0` (30_encoding.md R80; log 6). -/
opaque freeRspData : Nat → BitVec 32

/-- Entry `i` of channel `k`'s buffer after the reset cycle of this free index (10_state.md R39: unspecified; log 7). -/
opaque freeRaw : Nat → Nat → Nat → Ticks

end Config

end Sys2Proof
end

