-- ==== Sys2Proof/Machine/State.lean ====
section
/-! DEFINITION. The state of the block as plain data (10_state.md R20, R39), the reasons a step can stop, and the state
after reset. -/

namespace Sys2Proof.Machine

/-- The four values of a channel's `state` (10_state.md R21). -/
inductive ChState where
  | idle
  | readingMark
  | readingSpace
  | stopped
  deriving DecidableEq, Repr

/-- One channel: the fields of 10_state.md R20 and no other. -/
structure Channel where
  state        : ChState
  elapsedTicks : Ticks
  length       : BitVec 9
  rawBuffer    : List Ticks
  blinkEn      : Bool
  ledQ         : Bool
  deriving DecidableEq, Repr

/-- `rsp_status` (30_encoding.md R81); its codes are in Flags.lean. Codes 6 and 7 do not exist here. -/
inductive Status where
  | ok
  | notReady
  | noMatch
  | badIndex
  | badChannel
  | illegal
  deriving DecidableEq, Repr

/-- `rsp_tag` (30_encoding.md R82); its codes are in Flags.lean. Code 3 does not exist here. -/
inductive Tag where
  | none
  | framed
  | hash
  deriving DecidableEq, Repr

/-- The response bundle `respond(status, tag, bits, data)` (30_encoding.md R80, R83). -/
structure Response where
  status : Status
  tag    : Tag
  bits   : BitVec 16
  data   : DataWord
  deriving DecidableEq, Repr

/-- An accepted command whose response is still to be given: the response, fixed in the acceptance cycle
(70_reset_and_hazards.md R242), and how many cycles pass before the one that asserts `rsp_valid` (30_encoding.md R74). -/
structure Pending where
  rsp  : Response
  wait : Nat
  deriving DecidableEq, Repr

/-- The input ports of one clock cycle (30_encoding.md R70). Bits of `irIn` at or above NCH are no ports and are not
read. `irIn` is the synchronised level (10_state.md R38). -/
structure Pins where
  rst      : Bool
  tick     : Bool
  irIn     : Levels
  cmdValid : Bool
  cmd      : CmdWord
  deriving DecidableEq, Repr

/-- The block, with the input cycles to come. The spec's state is `chans` (10_state.md R20) and the command port's
outstanding response (30_encoding.md R74). `cfg`, `inputs` and `freeIdx` are the model's own: the parameters
(00_scope.md R7; log 1), the pins of the coming cycles, first cycle first (log 2), and the index of the free values
(log 4). -/
structure State where
  cfg         : Config
  chans       : List Channel
  outstanding : Option Pending
  inputs      : List Pins
  freeIdx     : Nat
  deriving DecidableEq, Repr

/-- Faults. There is none: "The block has no traps, exceptions or interrupts towards the host. Every error is a status
code in the response" (60_exceptions.md R200). No step can answer one. -/
inductive Fault where
  deriving DecidableEq, Repr

/-- Refusals. -/
inductive Refusal where
  /-- Raised by an arm of exec whose instruction has no meaning yet (none is left). Safe. -/
  | notModelled (mnemonic : String)
  /-- Raised by every step of a machine whose parameters are outside 00_scope.md R7's legal values: "A configuration
  that breaks one is refused by the model, and no rule gives it a meaning" (R8). Safe (log 9). -/
  | illegalConfiguration
  deriving DecidableEq, Repr

/-- A channel after reset (10_state.md R39). The spec leaves the buffer's content unspecified: 0 here is a DESIGN
CHOICE (log 7), and no rule reads it, since `length = 0` (R24). -/
def Channel.reset (cfg : Config) : Channel :=
  { state := .idle, elapsedTicks := 0, length := 0, rawBuffer := List.replicate cfg.capacity 0,
    blinkEn := false, ledQ := false }

/-- The state after reset of a block with `nch` channels and the other parameters `cfg` (10_state.md R39,
70_reset_and_hazards.md R230). -/
def State.resetOf (nch : Nat) (cfg : Config) : State :=
  { cfg := cfg, chans := List.replicate nch (Channel.reset cfg), outstanding := none, inputs := [], freeIdx := 0 }

/-- The state after reset in the reference configuration REF, with NCH = 1 (00_scope.md R7). No input cycle is listed:
the pins are idle until inputs are given (log 2). -/
def State.reset : State := State.resetOf 1 Config.ref

/-- NCH (00_scope.md R6, R7): the number of channels. -/
def State.nch (s : State) : Nat := s.chans.length

end Sys2Proof.Machine
end

