-- ==== Sys2Proof/Machine/Flags.lean ====
section
/-! DEFINITION. The codes of the state, status and tag fields, and the STATUS word with its flags FULL and READY, which
have no storage (10_state.md R21, R29, R30, 30_encoding.md R81, R82). -/

namespace Sys2Proof.Machine

/-- The encoding of `state` (10_state.md R21). -/
def ChState.code : ChState → BitVec 2
  | .idle => 0
  | .readingMark => 1
  | .readingSpace => 2
  | .stopped => 3

/-- The encoding of `rsp_status` (30_encoding.md R81). -/
def Status.code : Status → BitVec 3
  | .ok => 0
  | .notReady => 1
  | .noMatch => 2
  | .badIndex => 3
  | .badChannel => 4
  | .illegal => 5

/-- The encoding of `rsp_tag` (30_encoding.md R82). -/
def Tag.code : Tag → BitVec 2
  | .none => 0
  | .framed => 1
  | .hash => 2

/-- FULL = (`length = CAPACITY`) (10_state.md R30). -/
def Channel.full (cfg : Config) (c : Channel) : Bool := decide (c.length.toNat = cfg.capacity)

/-- READY: `state = STOPPED` (10_state.md R29). -/
def Channel.ready (c : Channel) : Bool := decide (c.state = .stopped)

/-- The STATUS word: `{26'b0, READY, LED, BLINK, FULL, STATE}` (10_state.md R29, 41_host_commands.md R135). -/
def Channel.statusWord (cfg : Config) (c : Channel) : DataWord :=
  0#26 ++ BitVec.ofBool c.ready ++ BitVec.ofBool c.ledQ ++ BitVec.ofBool c.blinkEn ++ BitVec.ofBool (c.full cfg)
    ++ c.state.code

end Sys2Proof.Machine
end

