-- ==== Sys2Proof/Machine/Ops.lean ====
section
/-! DEFINITION. The shared operations: the counter, the raw buffer, the response (which stands where another machine
takes an exception: 60_exceptions.md R200), reset, and the start of a cycle. -/

namespace Sys2Proof.Machine

/-- Run `f` on the next state; a stop stays as it is. -/
def andThen (o : Host.Outcome State Fault Refusal) (f : State → Host.Outcome State Fault Refusal) :
    Host.Outcome State Fault Refusal :=
  match o with
  | .next s => f s
  | .fault e => .fault e
  | .refused r => .refused r

/-! ## Parameters -/

/-- MIN_BITS, fixed at 12 (00_scope.md R7). -/
def minBits : Nat := 12

/-- HASH_MIN_LEN, fixed at 6 (00_scope.md R7). -/
def hashMinLen : Nat := 6

/-- The legal values of 00_scope.md R7 and the constraints of R8, with `nch` for NCH (log 9). -/
def configLegal (nch : Nat) (cfg : Config) : Bool :=
  decide (1 ≤ nch ∧ nch ≤ 16 ∧ 0 < cfg.tickUs ∧ 8 ≤ cfg.tickW ∧ cfg.tickW ≤ 32 ∧ 2 ≤ cfg.capacity ∧ cfg.capacity ≤ 256
    ∧ 1 ≤ cfg.gapTicks ∧ cfg.gapTicks + 2 ≤ 2 ^ cfg.tickW ∧ 1 ≤ cfg.nBits ∧ cfg.nBits ≤ 127
    ∧ 1 ≤ cfg.hdrMark ∧ cfg.hdrMark < 2 ^ cfg.tickW ∧ 1 ≤ cfg.hdrSpace ∧ cfg.hdrSpace < 2 ^ cfg.tickW
    ∧ 1 ≤ cfg.oneMark ∧ cfg.oneMark < 2 ^ cfg.tickW ∧ 1 ≤ cfg.zeroMark ∧ cfg.zeroMark < 2 ^ cfg.tickW
    ∧ cfg.tolAbs < 2 ^ cfg.tickW ∧ cfg.tolPct ≤ 100 ∧ cfg.hashTolPct ≤ 99)

/-- The configuration this state runs under is one the spec gives a meaning (00_scope.md R8). -/
def State.legal (s : State) : Bool := configLegal s.nch s.cfg

/-! ## The counter and the raw buffer -/

/-- `x mod 2^TICK_W`: what a counter or an entry of TICK_W bits holds (10_state.md R20). -/
def truncTicks (cfg : Config) (x : Ticks) : Ticks := BitVec.ofNat 32 (x.toNat % 2 ^ cfg.tickW)

/-- `inc(x)` (40_tick_sampler.md R103). -/
def inc (cfg : Config) (x : Ticks) : Ticks :=
  match cfg.cntMode with
  | .wrap => BitVec.ofNat 32 ((x.toNat + 1) % 2 ^ cfg.tickW)
  | .saturate => BitVec.ofNat 32 (min (x.toNat + 1) (2 ^ cfg.tickW - 1))

/-- `raw[i]` (00_scope.md R10). Every reader keeps `i` below `length` (10_state.md R24), so the 0 of an index the
buffer does not have is never seen in a reachable state (log 11). -/
def Channel.raw (c : Channel) (i : Nat) : Ticks := c.rawBuffer.getD i 0

/-- `raw[i] <- v` (00_scope.md R10). -/
def Channel.setRaw (c : Channel) (i : Nat) (v : Ticks) : Channel := { c with rawBuffer := c.rawBuffer.set i v }

/-- `elapsedTicks <- 0`. -/
def Channel.clearElapsed (c : Channel) : Channel := { c with elapsedTicks := 0 }

/-- A completed run is recorded: `raw[length] <- elapsedTicks; length <- length + 1; elapsedTicks <- 0;
state <- next` (40_tick_sampler.md R110, R111). -/
def Channel.record (c : Channel) (next : ChState) : Channel :=
  { c.setRaw c.length.toNat c.elapsedTicks with length := c.length + 1, elapsedTicks := 0, state := next }

/-- A frame starts: `raw[0] <- elapsedTicks; length <- 1; elapsedTicks <- 0; state <- READING_MARK`
(40_tick_sampler.md R108). -/
def Channel.startFrame (c : Channel) : Channel :=
  { c.setRaw 0 c.elapsedTicks with length := 1, elapsedTicks := 0, state := .readingMark }

/-! ## Responses -/

/-- `respond(OK, NONE, 0, data)`. -/
def Response.okData (data : DataWord) : Response := { status := .ok, tag := .none, bits := 0, data := data }

/-- `respond(status, NONE, 0, 0)`: every field the rule gives no value for is 0 (30_encoding.md R80). -/
def Response.bare (status : Status) : Response := { status := status, tag := .none, bits := 0, data := 0 }

/-- The command accepted in this cycle has its response fixed (70_reset_and_hazards.md R242); `rsp_valid` follows after
RSP_LAT cycles, a free value (30_encoding.md R74; log 4). -/
def State.withResponse (s : State) (r : Response) : State :=
  { s with outstanding := some { rsp := r, wait := Config.freeRspWait s.freeIdx } }

/-- `respond(status, tag, bits, data)` (30_encoding.md R80): the end of every command. An error status is all that an
erroneous command leaves behind (60_exceptions.md R200). -/
def respond (s : State) (r : Response) : Host.Outcome State Fault Refusal := .next (s.withResponse r)

/-- `ch.f <- v` for the fields of one channel. No other channel changes (41_host_commands.md R130). -/
def State.setChan (s : State) (k : Nat) (c : Channel) : State := { s with chans := s.chans.set k c }

/-! ## The command port and the cycle -/

/-- The pins when no input cycle is listed: no reset, no TICK, no command (log 2). -/
def Pins.idle : Pins := { rst := false, tick := false, irIn := 0, cmdValid := false, cmd := 0 }

/-- The input ports of the cycle about to run. -/
def State.pins (s : State) : Pins := s.inputs.headD Pins.idle

/-- `rsp_valid` of the cycle about to run, were it no reset cycle: the outstanding response has waited out its
RSP_LAT (30_encoding.md R74). -/
def State.responseDue (s : State) : Option Response :=
  match s.outstanding with
  | some { rsp := r, wait := 0 } => some r
  | _ => none

/-- `cmd_ready` of the cycle about to run, were it no reset cycle. With no command outstanding it is 1
(70_reset_and_hazards.md R230); from the cycle after an acceptance on it is 0; whether the cycle of `rsp_valid` itself
counts, the spec leaves open (30_encoding.md R74; log 5). -/
def State.cmdReady (s : State) : Bool :=
  match s.outstanding with
  | none => true
  | some { rsp := _, wait := 0 } => Config.readyInResponseCycle
  | some { rsp := _, wait := _ + 1 } => false

/-- One cycle's progress of the outstanding response: delivered when its wait is over. `rsp_valid` is 1 for exactly one
cycle (30_encoding.md R74). -/
def nextOutstanding : Option Pending → Option Pending
  | none => none
  | some { rsp := _, wait := 0 } => none
  | some { rsp := r, wait := n + 1 } => some { rsp := r, wait := n }

/-- The input cycle is taken and the free index moves on. -/
def State.advance (s : State) : State := { s with inputs := s.inputs.tail, freeIdx := s.freeIdx + 1 }

/-- The start of a cycle without reset: its pins are taken, the outstanding response makes its progress. -/
def State.beginCycle (s : State) : State := { s.advance with outstanding := nextOutstanding s.outstanding }

/-- A channel in a reset cycle (70_reset_and_hazards.md R230, 10_state.md R39): the buffer's content is unspecified, so
every entry is a free value of TICK_W bits (log 7). -/
def resetChannel (cfg : Config) (n k : Nat) : Channel :=
  { Channel.reset cfg with
    rawBuffer := (List.range cfg.capacity).map fun i => truncTicks cfg (Config.freeRaw n k i) }

/-- A cycle with `rst = 1` (70_reset_and_hazards.md R230): every channel is reset, an outstanding command is discarded
with no response, and a TICK or command of the cycle is ignored. -/
def State.resetCycle (s : State) : State :=
  { s.advance with
    chans := (List.range s.nch).map (resetChannel s.cfg s.freeIdx), outstanding := none }

end Sys2Proof.Machine
end

