-- ==== Sys2Proof/Machine/Operands.lean ====
section
/-! DEFINITION. The operands: a TICK's electrical level as a sample, a command's channel field, and RDRAW's index
(30_encoding.md R76, 40_tick_sampler.md R101, 41_host_commands.md R130). -/

namespace Sys2Proof.Machine

/-- A sample (00_scope.md R14). -/
inductive Sample where
  | mark
  | space
  deriving DecidableEq, Repr

/-- `s = MARK` if `L = MARK_LEVEL`, else `SPACE` (40_tick_sampler.md R101). -/
def sampleOf (cfg : Config) (level : Bool) : Sample := if level = cfg.markLevel then .mark else .space

/-- Channel `k`'s level of a TICK's operand: `ir_in[k]` (30_encoding.md R72). -/
def levelOf (irIn : Levels) (k : Nat) : Bool := irIn.getLsbD k

/-- The common channel check of every command (41_host_commands.md R130, 60_exceptions.md R203): with `ch ≥ NCH` the
command answers BAD_CHANNEL and writes nothing; else its own rule runs on channel `ch`. -/
def withChannel (s : State) (ch : ChanIdx) (rule : Channel → Host.Outcome State Fault Refusal) :
    Host.Outcome State Fault Refusal :=
  match s.chans[ch.toNat]? with
  | none => respond s (.bare .badChannel)
  | some c => rule c

/-- RDRAW's operand: `raw[idx]` for `idx < length`, no entry otherwise (41_host_commands.md R138, 10_state.md R24). -/
def Channel.entry? (c : Channel) (idx : BitVec 8) : Option Ticks :=
  if idx.toNat ≥ c.length.toNat then none else some (c.raw idx.toNat)

end Sys2Proof.Machine
end

