-- ==== Sys2Proof/Machine/HostCommands.lean ====
section
/-! DEFINITION. The host commands but DECODE (41_host_commands.md R130 to R138). Each meaning is that of the command
accepted in this cycle, on the state at the cycle's start. -/

namespace Sys2Proof.Machine

/-- NOP (41_host_commands.md R131). -/
def execNop (ch : ChanIdx) (s : State) : Host.Outcome State Fault Refusal :=
  withChannel s ch fun _ => respond s (.bare .ok)

/-- RESUME (41_host_commands.md R132): `state <- IDLE; length <- 0`, in any state; every other field is kept. -/
def execResume (ch : ChanIdx) (s : State) : Host.Outcome State Fault Refusal :=
  withChannel s ch fun c => respond (s.setChan ch.toNat { c with state := .idle, length := 0 }) (.bare .ok)

/-- SETBLINK (41_host_commands.md R134): `blink_en <- en`; `led_q` is not changed. -/
def execSetblink (ch : ChanIdx) (en : Bool) (s : State) : Host.Outcome State Fault Refusal :=
  withChannel s ch fun c => respond (s.setChan ch.toNat { c with blinkEn := en }) (.bare .ok)

/-- RDSTATUS (41_host_commands.md R135). -/
def execRdstatus (ch : ChanIdx) (s : State) : Host.Outcome State Fault Refusal :=
  withChannel s ch fun c => respond s (.okData (c.statusWord s.cfg))

/-- RDLEN (41_host_commands.md R136): `zext_32(length)`. -/
def execRdlen (ch : ChanIdx) (s : State) : Host.Outcome State Fault Refusal :=
  withChannel s ch fun c => respond s (.okData (c.length.setWidth 32))

/-- RDELAPSED (41_host_commands.md R137): `zext_32(elapsedTicks)`. -/
def execRdelapsed (ch : ChanIdx) (s : State) : Host.Outcome State Fault Refusal :=
  withChannel s ch fun c => respond s (.okData c.elapsedTicks)

/-- RDRAW (41_host_commands.md R138): `zext_32(raw[idx])`, or BAD_INDEX for `idx ≥ length`. -/
def execRdraw (ch : ChanIdx) (idx : BitVec 8) (s : State) : Host.Outcome State Fault Refusal :=
  withChannel s ch fun c =>
    match c.entry? idx with
    | none => respond s (.bare .badIndex)
    | some v => respond s (.okData v)

/-- An accepted word that is ILLEGAL is answered `respond(ILLEGAL, NONE, 0, 0)`, with no state change (30_encoding.md
R78, 41_host_commands.md R130, 60_exceptions.md R202). -/
def answerIllegal (s : State) : Host.Outcome State Fault Refusal := respond s (.bare .illegal)

end Sys2Proof.Machine
end

