-- ==== Sys2Proof/Machine/Cycle.lean ====
section
/-! DEFINITION. One clock cycle (00_scope.md R11, 30_encoding.md R71, 70_reset_and_hazards.md R230, R240), over the
meaning of an instruction as an argument: Step.lean gives it exec. -/

namespace Sys2Proof.Machine

/-- The meaning of one instruction, as Dispatch.lean's exec has it. -/
abbrev Meaning := Instr → State → Host.Outcome State Fault Refusal

/-- An accepted command word: decoded, then run or answered ILLEGAL (41_host_commands.md R130). -/
def acceptWord (run : Meaning) (w : CmdWord) (s : State) : Host.Outcome State Fault Refusal :=
  match decodeCmd w with
  | .ok i => run i s
  | .error _ => answerIllegal s

/-- The command of a cycle, accepted when `cmd_valid = 1` and `cmd_ready = 1` (30_encoding.md R74). A command offered
while `cmd_ready = 0` is not accepted, and the host holds it (70_reset_and_hazards.md R241; log 13). -/
def commandPhase (run : Meaning) (p : Pins) (ready : Bool) (s : State) : Host.Outcome State Fault Refusal :=
  if p.cmdValid && ready then acceptWord run p.cmd s else .next s

/-- The TICK event of a cycle, when `tick = 1` (30_encoding.md R72, R73). -/
def tickPhase (run : Meaning) (p : Pins) (s : State) : Host.Outcome State Fault Refusal :=
  if p.tick then run (.tick p.irIn) s else .next s

/-- One cycle. A configuration outside the legal values is refused (00_scope.md R8). Reset overrides everything
(70_reset_and_hazards.md R230, 60_exceptions.md R209). Otherwise the command runs first, then the TICK runs on the
state the command left (R240). -/
def cycle (run : Meaning) (s : State) : Host.Outcome State Fault Refusal :=
  if s.legal then
    if s.pins.rst then .next s.resetCycle
    else andThen (commandPhase run s.pins s.cmdReady s.beginCycle) (tickPhase run s.pins)
  else .refused .illegalConfiguration

/-- The pins of a cycle that carries exactly this word: a command offered, or a TICK with the levels below the strobe
of a one-channel event word (30_encoding.md R72). -/
def Pins.ofTableWire : Wire → Pins
  | .cmd w => { Pins.idle with cmdValid := true, cmd := w }
  | .evt w => { Pins.idle with tick := w.getLsbD 1, irIn := BitVec.ofNat 16 (w.toNat % 2) }

/-- Put a word of spec/opcode_table.json on the pins of the next cycle. For a command the port is also made ready: no
command is outstanding (30_encoding.md R74). -/
def placeTableWord (s : State) (nbits w : Nat) : State :=
  match wireOfTableWord nbits w with
  | none => s
  | some (.cmd c) => { s with inputs := Pins.ofTableWire (.cmd c) :: s.inputs.tail, outstanding := none }
  | some (.evt e) => { s with inputs := Pins.ofTableWire (.evt e) :: s.inputs.tail }

end Sys2Proof.Machine
end

