-- ==== Sys2Proof/Machine/FrameDecode.lean ====
section
/-! DEFINITION. DECODE: the orchestrator, the tolerance match, the framed-protocol grammar and the fallback hash
(42_frame_decode.md R150 to R178). -/

namespace Sys2Proof.Machine

/-! ## Tolerance match -/

/-- `max(TOL_ABS, (e * TOL_PCT) / 100)` (42_frame_decode.md R155). -/
def margin (cfg : Config) (e : Nat) : Nat := max cfg.tolAbs (e * cfg.tolPct / 100)

/-- `Match(m, e) := abs(m - e) <= max(TOL_ABS, (e * TOL_PCT) / 100)`, on integers (42_frame_decode.md R155). -/
def durationMatches (cfg : Config) (m : Ticks) (e : Nat) : Bool :=
  decide (((m.toNat : Int) - (e : Int)).natAbs ≤ margin cfg e)

/-! ## The framed-protocol grammar -/

/-- What the grammar returns: `MATCH(v, b)`, or FAIL (the source's MALFORMED, never reported: 60_exceptions.md
R207). -/
inductive GrammarResult where
  | matched (v : DataWord) (b : Nat)
  | failed
  deriving DecidableEq, Repr

/-- The bit a MARK shifts in: ONE_MARK is tested first; neither fails (42_frame_decode.md R161). -/
def bitOfMark (cfg : Config) (m : Ticks) : Option Bool :=
  if durationMatches cfg m cfg.oneMark then some true
  else if durationMatches cfg m cfg.zeroMark then some false
  else none

/-- `acc <- ((acc << 1) | bit) mod 2^32` (42_frame_decode.md R164). -/
def shiftIn (acc : DataWord) (bit : Bool) : DataWord := acc <<< 1 ||| (if bit then 1 else 0)

/-- The loop of 42_frame_decode.md R157 (rules R160 to R162) from offset `off`, with the bits so far. The last check,
`b < MIN_BITS`, is R163. `fuel` bounds the iterations; `length` is always enough. -/
def grammarLoop (cfg : Config) (c : Channel) : Nat → Nat → DataWord → Nat → GrammarResult
  | 0, _, _, _ => .failed
  | fuel + 1, off, acc, b =>
    if off + 1 < c.length.toNat ∧ durationMatches cfg (c.raw off) cfg.hdrSpace = true then
      match bitOfMark cfg (c.raw (off + 1)) with
      | none => .failed
      | some bit => grammarLoop cfg c fuel (off + 2) (shiftIn acc bit) (b + 1)
    else if b < minBits then .failed
    else .matched acc b

/-- `Grammar(raw, length)` (42_frame_decode.md R157): the length guard (R158), the header at index 1 (R159), then the
bits from index 2 on. -/
def grammar (cfg : Config) (c : Channel) : GrammarResult :=
  if c.length.toNat < 2 * cfg.nBits + 2 then .failed
  else if durationMatches cfg (c.raw 1) cfg.hdrMark then grammarLoop cfg c c.length.toNat 2 0 0
  else .failed

/-! ## The fallback hash -/

/-- `Cmp(a, b)`, in {-1, 0, +1}, on integers (42_frame_decode.md R172). -/
def cmpDurations (cfg : Config) (a b : Ticks) : Int :=
  if 100 * a.toNat < (100 - cfg.hashTolPct) * b.toNat then -1
  else if 100 * b.toNat < (100 - cfg.hashTolPct) * a.toNat then 1
  else 0

/-- `word32(c)`: the 32-bit two's complement of the comparison value (42_frame_decode.md R173). -/
def word32 (c : Int) : DataWord := BitVec.ofInt 32 c

/-- One update, multiply then XOR: `h <- ((h * FNV_PRIME) mod 2^32) XOR word32(c)` (42_frame_decode.md R174). -/
def hashUpdate (cfg : Config) (h : DataWord) (c : Int) : DataWord := (h * cfg.fnvPrime) ^^^ word32 c

/-- The loop of 42_frame_decode.md R170 from index `i`, while `i + 2 < length`. `length` is always enough fuel. -/
def hashLoop (cfg : Config) (c : Channel) : Nat → Nat → DataWord → DataWord
  | 0, _, h => h
  | fuel + 1, i, h =>
    if i + 2 < c.length.toNat then
      hashLoop cfg c fuel (i + 1) (hashUpdate cfg h (cmpDurations cfg (c.raw i) (c.raw (i + 2))))
    else h

/-- `Hash(raw, length)` (42_frame_decode.md R170). -/
def hash (cfg : Config) (c : Channel) : DataWord := hashLoop cfg c c.length.toNat 1 cfg.fnvBasis

/-! ## The orchestrator -/

/-- `Decode(ch)`'s response (42_frame_decode.md R150 to R153, R165, R175). -/
def decodeResponse (cfg : Config) (c : Channel) : Response :=
  if c.state = .stopped then
    match grammar cfg c with
    | .matched v b => { status := .ok, tag := .framed, bits := BitVec.ofNat 16 b, data := v }
    | .failed =>
      if c.length.toNat ≥ hashMinLen then { status := .ok, tag := .hash, bits := 32, data := hash cfg c }
      else .bare .noMatch
  else .bare .notReady

/-- DECODE (42_frame_decode.md R150): it answers and changes no channel (R154). -/
def execDecode (ch : ChanIdx) (s : State) : Host.Outcome State Fault Refusal :=
  withChannel s ch fun c => respond s (decodeResponse s.cfg c)

end Sys2Proof.Machine
end

