-- ==== Sys2Proof/Machine/Tick.lean ====
section
/-! DEFINITION. TICK: the tick sampler and the pulse state machine (40_tick_sampler.md R100 to R121). -/

namespace Sys2Proof.Machine

/-- Blink mirroring: `if blink_en = 1: led_q <- (s = MARK ? 1 : 0)` (40_tick_sampler.md R118). -/
def Channel.blink (smp : Sample) (c : Channel) : Channel :=
  if c.blinkEn then { c with ledQ := decide (smp = .mark) } else c

/-- `elapsedTicks <- inc(elapsedTicks)` (40_tick_sampler.md R103). -/
def Channel.count (cfg : Config) (c : Channel) : Channel := { c with elapsedTicks := inc cfg c.elapsedTicks }

/-- The overflow guard (40_tick_sampler.md R105). -/
def Channel.guardOverflow (cfg : Config) (c : Channel) : Channel :=
  if c.length.toNat ≥ cfg.capacity then { c with state := .stopped } else c

/-- IDLE (40_tick_sampler.md R106 to R108): a MARK before the gap threshold is noise, one at or after it starts a
frame. -/
def Channel.stepIdle (cfg : Config) (smp : Sample) (c : Channel) : Channel :=
  match smp with
  | .space => c
  | .mark => if c.elapsedTicks.toNat < cfg.gapTicks then c.clearElapsed else c.startFrame

/-- READING_MARK (40_tick_sampler.md R109, R110). -/
def Channel.stepReadingMark (smp : Sample) (c : Channel) : Channel :=
  match smp with
  | .mark => c
  | .space => c.record .readingSpace

/-- READING_SPACE (40_tick_sampler.md R111 to R113): the comparison with the gap threshold is strict. -/
def Channel.stepReadingSpace (cfg : Config) (smp : Sample) (c : Channel) : Channel :=
  match smp with
  | .mark => c.record .readingMark
  | .space => if c.elapsedTicks.toNat > cfg.gapTicks then { c with state := .stopped } else c

/-- STOPPED (40_tick_sampler.md R114, R115). -/
def Channel.stepStopped (smp : Sample) (c : Channel) : Channel :=
  match smp with
  | .mark => c.clearElapsed
  | .space => c

/-- The per-state logic, on the state the guard leaves (40_tick_sampler.md R100). -/
def Channel.stepState (cfg : Config) (smp : Sample) (c : Channel) : Channel :=
  match c.state with
  | .idle => c.stepIdle cfg smp
  | .readingMark => c.stepReadingMark smp
  | .readingSpace => c.stepReadingSpace cfg smp
  | .stopped => c.stepStopped smp

/-- `TickStep(ch, L)` on the sample of `L`: blink, count, guard, per-state logic, in the order of
40_tick_sampler.md R104. -/
def tickStep (cfg : Config) (smp : Sample) (c : Channel) : Channel :=
  (((c.blink smp).count cfg).guardOverflow cfg).stepState cfg smp

/-- TICK (40_tick_sampler.md R100, R102): every channel steps, each on its own level. It has no error and no
response. -/
def execTick (irIn : Levels) (s : State) : Host.Outcome State Fault Refusal :=
  .next { s with chans := s.chans.mapIdx fun k c => tickStep s.cfg (sampleOf s.cfg (levelOf irIn k)) c }

end Sys2Proof.Machine
end

