-- ==== Sys2Proof/Machine/Dispatch.lean ====
section
/-! DEFINITION. One arm per instruction: which meaning runs it. -/

namespace Sys2Proof.Machine

def exec (i : Instr) (s : State) : Host.Outcome State Fault Refusal :=
  match i with
  | .nop ch => Sys2Proof.Machine.execNop ch s
  | .resume ch => Sys2Proof.Machine.execResume ch s
  | .decode ch => Sys2Proof.Machine.execDecode ch s
  | .setblink ch en => Sys2Proof.Machine.execSetblink ch en s
  | .rdstatus ch => Sys2Proof.Machine.execRdstatus ch s
  | .rdlen ch => Sys2Proof.Machine.execRdlen ch s
  | .rdelapsed ch => Sys2Proof.Machine.execRdelapsed ch s
  | .rdraw ch idx => Sys2Proof.Machine.execRdraw ch idx s
  | .tick irIn => Sys2Proof.Machine.execTick irIn s

end Sys2Proof.Machine
end

