-- ==== Sys2Proof/Machine/Ports.lean ====
section
/-! DEFINITION. The output ports (30_encoding.md R70, R80): a function of the state at the start of a cycle and of that
cycle's `rst`. -/

namespace Sys2Proof.Machine

/-- The output ports of one cycle, each with its width (30_encoding.md R70); `led[ch]` is entry `ch`. -/
structure OutPorts where
  cmdReady  : Bool
  rspValid  : Bool
  rspStatus : BitVec 3
  rspTag    : BitVec 2
  rspBits   : BitVec 16
  rspData   : BitVec 32
  led       : List Bool
  deriving DecidableEq, Repr

/-- The response driven in the cycle about to run: none in a reset cycle (70_reset_and_hazards.md R230). -/
def State.driven (s : State) : Option Response := if s.pins.rst then none else s.responseDue

/-- The output ports of the cycle about to run. `cmd_ready = 0` and `rsp_valid = 0` in a reset cycle (R230); the
response ports hold any value while `rsp_valid = 0` (30_encoding.md R80; log 6); `led[ch] = led_q` (R70). -/
def State.ports (s : State) : OutPorts :=
  match s.driven with
  | some r =>
    { cmdReady := !s.pins.rst && s.cmdReady, rspValid := true, rspStatus := r.status.code, rspTag := r.tag.code,
      rspBits := r.bits, rspData := r.data, led := s.chans.map Channel.ledQ }
  | none =>
    { cmdReady := !s.pins.rst && s.cmdReady, rspValid := false, rspStatus := Config.freeRspStatus s.freeIdx,
      rspTag := Config.freeRspTag s.freeIdx, rspBits := Config.freeRspBits s.freeIdx,
      rspData := Config.freeRspData s.freeIdx, led := s.chans.map Channel.ledQ }

end Sys2Proof.Machine
end

