-- ==== Sys2Proof/Machine/Step.lean ====
section
/-! DEFINITION. The step: one clock cycle of the block (00_scope.md R11). -/

namespace Sys2Proof.Machine

/-- One step is one clock cycle, with the pins of the first listed input cycle. -/
def step (s : State) : Host.Outcome State Fault Refusal := cycle exec s

/-- `s` with the word of spec/opcode_table.json on the pins of the next cycle, so that the very next step runs it. -/
def State.withFetchWord (s : State) (nbits w : Nat) : State := placeTableWord s nbits w

end Sys2Proof.Machine
end

