-- ==== Sys2Proof/Machine/Asm.lean ====
section
/-! DEFINITION. The textual syntax of events and commands (30_encoding.md R84 to R86): from the characters of a line to
the input cycles it stands for. A line that is not of the syntax, or whose operand R86 makes an assembler refuse, has
none. -/

namespace Sys2Proof.Machine.Asm

/-- A command as written: operands are plain numbers (30_encoding.md R84). -/
inductive Cmd where
  | nop (ch : Nat)
  | resume (ch : Nat)
  | decode (ch : Nat)
  | setblink (ch e : Nat)
  | rdstatus (ch : Nat)
  | rdlen (ch : Nat)
  | rdelapsed (ch : Nat)
  | rdraw (ch idx : Nat)
  deriving DecidableEq, Repr

/-- A TICK as written: one level per channel, or one of the pseudo-forms TICK.M and TICK.S (30_encoding.md R85). -/
inductive Tick where
  | levels (ls : List Nat)
  | mark
  | space
  deriving DecidableEq, Repr

/-- What one cycle of a line carries: `IDLE.CYC` is a cycle with neither (30_encoding.md R85). -/
inductive Form where
  | cmd (c : Cmd)
  | tick (t : Tick)
  | both (c : Cmd) (t : Tick)
  | idle
  deriving DecidableEq, Repr

/-- A line: a form, and how many consecutive cycles carry it (`<form> ×n`, 30_encoding.md R85). -/
structure Line where
  form  : Form
  times : Nat
  deriving DecidableEq, Repr

/-! ## From a line to input cycles -/

/-- A channel outside 0..15 is refused; one in NCH..15 is encodable (30_encoding.md R86). -/
def chan? (n : Nat) : Option ChanIdx := if n ≤ 15 then some (BitVec.ofNat 4 n) else none

/-- The instruction a written command stands for (30_encoding.md R84); an `<e>` outside {0, 1} or an `<idx>` outside
0..255 is refused (R86). -/
def Cmd.instr? : Cmd → Option Instr
  | .nop n => (chan? n).map Instr.nop
  | .resume n => (chan? n).map Instr.resume
  | .decode n => (chan? n).map Instr.decode
  | .setblink n e => if e ≤ 1 then (chan? n).map fun ch => Instr.setblink ch (decide (e = 1)) else none
  | .rdstatus n => (chan? n).map Instr.rdstatus
  | .rdlen n => (chan? n).map Instr.rdlen
  | .rdelapsed n => (chan? n).map Instr.rdelapsed
  | .rdraw n idx => if idx ≤ 255 then (chan? n).map fun ch => Instr.rdraw ch (BitVec.ofNat 8 idx) else none

/-- The command word: the encoding of the instruction (30_encoding.md R84). -/
def Cmd.word? (c : Cmd) : Option CmdWord :=
  match c.instr? with
  | none => none
  | some i =>
    match encode 0 i with
    | .cmd w => some w
    | .evt _ => none

/-- Levels, channel 0's first, as the `ir_in` vector; a level is 0 or 1. -/
def levelBits : List Nat → Option Nat
  | [] => some 0
  | l :: ls => if l ≤ 1 then (levelBits ls).map fun n => l + 2 * n else none

/-- The `ir_in` vector of a TICK: one level per channel; TICK.M and TICK.S are defined only for NCH = 1
(30_encoding.md R84, R85). -/
def Tick.irIn? (nch : Nat) (markLevel : Bool) : Tick → Option Levels
  | .levels ls => if ls.length = nch then (levelBits ls).map (BitVec.ofNat 16) else none
  | .mark => if nch = 1 then some (if markLevel then 1 else 0) else none
  | .space => if nch = 1 then some (if markLevel then 0 else 1) else none

/-- The pins of a cycle that carries a form (30_encoding.md R85). DESIGN CHOICE (log 18): a written command stands for a
cycle that offers its word (`cmd_valid = 1`), whether or not `cmd_ready = 1`; R85 says that the cycle carries the form, R71
that a cycle carries a command when the port is ready too, and neither what the line means while it is not. -/
def Form.pins? (nch : Nat) (markLevel : Bool) : Form → Option Pins
  | .cmd c => c.word?.map fun w => { Pins.idle with cmdValid := true, cmd := w }
  | .tick t => (t.irIn? nch markLevel).map fun l => { Pins.idle with tick := true, irIn := l }
  | .both c t =>
    match c.word?, t.irIn? nch markLevel with
    | some w, some l => some { Pins.idle with cmdValid := true, cmd := w, tick := true, irIn := l }
    | _, _ => none
  | .idle => some Pins.idle

/-- The input cycles of a line (30_encoding.md R85). -/
def Line.cycles? (nch : Nat) (markLevel : Bool) (l : Line) : Option (List Pins) :=
  (l.form.pins? nch markLevel).map (List.replicate l.times)

/-! ## From characters to a line -/

/-- A token: a word (its letters as capitals: "Mnemonics are case-insensitive", 30_encoding.md R84) or a mark. -/
inductive Token where
  | word (cs : List Char)
  | comma
  | bars
  | times
  deriving DecidableEq, Repr

/-- Put a word read so far (in reverse) before the tokens that follow it. -/
def flush : List Char → List Token → List Token
  | [], ts => ts
  | c :: cs, ts => .word (c :: cs).reverse :: ts

/-- The tokens of a line; the second argument is the word read so far, in reverse. -/
def lex : List Char → List Char → List Token
  | [], w => flush w []
  | ' ' :: r, w => flush w (lex r [])
  | ',' :: r, w => flush w (.comma :: lex r [])
  | '|' :: '|' :: r, w => flush w (.bars :: lex r [])
  | '×' :: r, w => flush w (.times :: lex r [])
  | c :: r, w => lex r (c.toUpper :: w)

/-- The value of a digit in capitals, decimal or hexadecimal. -/
def digit? (c : Char) : Option Nat :=
  if '0'.toNat ≤ c.toNat ∧ c.toNat ≤ '9'.toNat then some (c.toNat - '0'.toNat)
  else if 'A'.toNat ≤ c.toNat ∧ c.toNat ≤ 'F'.toNat then some (c.toNat - 'A'.toNat + 10)
  else none

/-- Digits in a base, after the value read so far. -/
def digits? (base : Nat) : List Char → Nat → Option Nat
  | [], n => some n
  | c :: cs, n =>
    match digit? c with
    | none => none
    | some d => if d < base then digits? base cs (base * n + d) else none

/-- A number: decimal, or hexadecimal after `0x` (30_encoding.md R84). -/
def number? : List Char → Option Nat
  | [] => none
  | '0' :: 'X' :: c :: cs => digits? 16 (c :: cs) 0
  | c :: cs => digits? 10 (c :: cs) 0

/-- A channel: `c<n>`, n decimal (30_encoding.md R84). -/
def channel? : List Char → Option Nat
  | 'C' :: c :: cs => digits? 10 (c :: cs) 0
  | _ => none

/-- A command with only a channel, by its mnemonic (30_encoding.md R84). -/
def plainCmd? (m : List Char) (ch : Nat) : Option Cmd :=
  if m = ['N', 'O', 'P'] then some (.nop ch)
  else if m = ['R', 'E', 'S', 'U', 'M', 'E'] then some (.resume ch)
  else if m = ['D', 'E', 'C', 'O', 'D', 'E'] then some (.decode ch)
  else if m = ['R', 'D', 'S', 'T', 'A', 'T', 'U', 'S'] then some (.rdstatus ch)
  else if m = ['R', 'D', 'L', 'E', 'N'] then some (.rdlen ch)
  else if m = ['R', 'D', 'E', 'L', 'A', 'P', 'S', 'E', 'D'] then some (.rdelapsed ch)
  else none

/-- A command with a channel and a number, by its mnemonic (30_encoding.md R84). -/
def numberedCmd? (m : List Char) (ch n : Nat) : Option Cmd :=
  if m = ['S', 'E', 'T', 'B', 'L', 'I', 'N', 'K'] then some (.setblink ch n)
  else if m = ['R', 'D', 'R', 'A', 'W'] then some (.rdraw ch n)
  else none

/-- A written command (30_encoding.md R84). -/
def parseCmd? : List Token → Option Cmd
  | [.word m, .word c] =>
    match channel? c with
    | none => none
    | some ch => plainCmd? m ch
  | [.word m, .word c, .comma, .word n] =>
    match channel? c, number? n with
    | some ch, some v => numberedCmd? m ch v
    | _, _ => none
  | _ => none

/-- `<L0>[, <L1>, ...]` (30_encoding.md R84). -/
def parseLevels? : List Token → Option (List Nat)
  | [.word n] => (number? n).map fun v => [v]
  | .word n :: .comma :: ts =>
    match number? n, parseLevels? ts with
    | some v, some vs => some (v :: vs)
    | _, _ => none
  | _ => none

/-- A written TICK (30_encoding.md R84, R85). -/
def parseTick? : List Token → Option Tick
  | [] => none
  | .word m :: ts =>
    if m = ['T', 'I', 'C', 'K'] then (parseLevels? ts).map .levels
    else if m = ['T', 'I', 'C', 'K', '.', 'M'] ∧ ts = [] then some .mark
    else if m = ['T', 'I', 'C', 'K', '.', 'S'] ∧ ts = [] then some .space
    else none
  | _ => none

/-- Split at the first `||`. -/
def splitBars : List Token → List Token × Option (List Token)
  | [] => ([], none)
  | .bars :: ts => ([], some ts)
  | t :: ts => (t :: (splitBars ts).1, (splitBars ts).2)

/-- Split at the first `×`. -/
def splitTimes : List Token → List Token × Option (List Token)
  | [] => ([], none)
  | .times :: ts => ([], some ts)
  | t :: ts => (t :: (splitTimes ts).1, (splitTimes ts).2)

/-- A written form: a command, a TICK, `IDLE.CYC`, or a command and a TICK joined by `||`, in either order
(30_encoding.md R85). -/
def parseForm? (ts : List Token) : Option Form :=
  match splitBars ts with
  | (l, some r) =>
    match parseCmd? l, parseTick? r, parseTick? l, parseCmd? r with
    | some c, some t, _, _ => some (.both c t)
    | _, _, some t, some c => some (.both c t)
    | _, _, _, _ => none
  | (l, none) =>
    if l = [.word ['I', 'D', 'L', 'E', '.', 'C', 'Y', 'C']] then some .idle
    else
      match parseCmd? l, parseTick? l with
      | some c, _ => some (.cmd c)
      | none, some t => some (.tick t)
      | none, none => none

/-- A line: a form, once or `×n` (30_encoding.md R85). DESIGN CHOICE (log 18): `×n` after a `||` line repeats the whole
joined cycle, and a bare `IDLE.CYC` is one cycle; R85 gives `×n` and `||` separately, and `IDLE.CYC` only with `×n`. -/
def parseLine? (cs : List Char) : Option Line :=
  match splitTimes (lex cs []) with
  | (l, none) => (parseForm? l).map fun f => { form := f, times := 1 }
  | (l, some [.word n]) =>
    match parseForm? l, number? n with
    | some f, some k => some { form := f, times := k }
    | _, _ => none
  | _ => none

/-- The input cycles a line of text stands for, on a block with `nch` channels. -/
def assemble? (nch : Nat) (markLevel : Bool) (cs : List Char) : Option (List Pins) :=
  match parseLine? cs with
  | none => none
  | some l => l.cycles? nch markLevel

end Sys2Proof.Machine.Asm
end

