-- ==== Sys2Proof/Safety.lean ====
section
/-! DEFINITION. What the claims speak of: the invariant of the block (10_state.md R33, R34 and the field widths of R20),
runs of several cycles, and what the host owes the command port. -/

namespace Sys2Proof.Machine

/-- `raw` has CAPACITY entries, each of TICK_W bits (10_state.md R20). -/
abbrev rawWf (cfg : Config) (raw : List Ticks) : Prop :=
  raw.length = cfg.capacity ∧ ∀ v ∈ raw, v.toNat < 2 ^ cfg.tickW

/-- The relation of `state` and `length` (10_state.md R34). -/
abbrev Channel.stateLengthInv (cfg : Config) (c : Channel) : Prop :=
  match c.state with
  | .idle => c.length.toNat = 0
  | .readingMark => c.length.toNat % 2 = 1 ∧ 1 ≤ c.length.toNat
  | .readingSpace => c.length.toNat % 2 = 0 ∧ 2 ≤ c.length.toNat
  | .stopped => c.length.toNat % 2 = 0 ∨ c.length.toNat = cfg.capacity

/-- A channel as the block can hold it: the widths of 10_state.md R20, `length ≤ CAPACITY` (R33), and R34. -/
structure Channel.Inv (cfg : Config) (c : Channel) : Prop where
  elapsed_lt  : c.elapsedTicks.toNat < 2 ^ cfg.tickW
  raw_wf      : rawWf cfg c.rawBuffer
  length_le   : c.length.toNat ≤ cfg.capacity
  stateLength : c.stateLengthInv cfg

/-- The block's invariant: a legal configuration (00_scope.md R7, R8), and every channel as above. -/
structure State.Inv (s : State) : Prop where
  legal : s.legal = true
  chans : ∀ c ∈ s.chans, c.Inv s.cfg

/-- `t` is `s` but for the response `r` that a command answered: no channel and nothing else has changed. -/
structure State.Answered (s t : State) (r : Response) : Prop where
  outstanding : ∃ n, t.outstanding = some { rsp := r, wait := n }
  chans       : t.chans = s.chans
  cfg         : t.cfg = s.cfg
  inputs      : t.inputs = s.inputs
  freeIdx     : t.freeIdx = s.freeIdx

/-- `t` is `s` but for the response `r` and for channel `k`, which is now `c`. -/
structure State.AnsweredWriting (s t : State) (k : Nat) (c : Channel) (r : Response) : Prop where
  outstanding : ∃ n, t.outstanding = some { rsp := r, wait := n }
  written     : t.chans[k]? = some c
  others      : ∀ j, j ≠ k → t.chans[j]? = s.chans[j]?
  nch         : t.nch = s.nch
  cfg         : t.cfg = s.cfg
  inputs      : t.inputs = s.inputs
  freeIdx     : t.freeIdx = s.freeIdx

/-- TICK instructions one after the other. -/
def execTicks : List Levels → State → Host.Outcome State Fault Refusal
  | [], s => .next s
  | l :: ls, s => andThen (exec (.tick l) s) (execTicks ls)

/-- This cycle does not resume channel `k`: it offers no RESUME for it (41_host_commands.md R132). -/
def Pins.resumes (k : Nat) (p : Pins) : Bool :=
  match decodeCmd p.cmd with
  | .ok (.resume ch) => p.cmdValid && decide (ch.toNat = k)
  | _ => false

/-- The host holds a command that was offered and not accepted, unchanged, until it is accepted
(70_reset_and_hazards.md R241): `q` is the cycle after `p`, and `s` the state before `p`. -/
def holdsCommand (s : State) (p q : Pins) : Prop :=
  p.rst = false → p.cmdValid = true → s.cmdReady = false → q.rst = true ∨ (q.cmdValid = true ∧ q.cmd = p.cmd)

end Sys2Proof.Machine
end

