-- ==== Sys2Proof/Certificates/Slice0/Obligations.lean ====
section
/-! DEFINITION. The statements for the provers, one for each rule or group of rules of spec/. -/

open Sys2Proof Sys2Proof.Machine

/-! ## Reset and configuration -/

/-- 10_state.md R39: the reset values, of State.reset and of a block with any number of channels and any parameters. The
buffer's content is unspecified and not stated; it cannot be observed, since no index has an entry. -/
def Obligations.ResetLeavesEveryChannelAtItsResetValues : Prop :=
  State.reset.chans ≠ [] ∧
  ∀ s : State, (s = State.reset ∨ ∃ nch cfg, s = State.resetOf nch cfg) → ∀ c ∈ s.chans,
    c.state = .idle ∧ c.elapsedTicks = 0 ∧ c.length = 0 ∧ c.blinkEn = false ∧ c.ledQ = false ∧
      ∀ idx, c.entry? idx = none

/-- The state after reset meets the invariant (10_state.md R33, R34), in REF and in every legal configuration.
The buffer's content 0 and the 32-bit words are the model's choices (log 7, log 8). -/
def Obligations.ResetMeetsInvariant : Prop :=
  State.reset.Inv ∧ ∀ (nch : Nat) (cfg : Config), configLegal nch cfg = true → (State.resetOf nch cfg).Inv

/-- 70_reset_and_hazards.md R230: a cycle with `rst = 1`. -/
def Obligations.ResetCycleResetsAndDiscards : Prop :=
  ∀ s : State, s.legal = true → s.pins.rst = true →
    s.ports.cmdReady = false ∧ s.ports.rspValid = false ∧
    ∃ t, step s = .next t ∧ t.nch = s.nch ∧ t.cfg = s.cfg ∧ t.inputs = s.inputs.tail ∧ t.outstanding = none ∧
      (∀ c ∈ t.chans, c.state = .idle ∧ c.elapsedTicks = 0 ∧ c.length = 0 ∧ c.blinkEn = false ∧ c.ledQ = false) ∧
      (t.pins.rst = false → t.ports.cmdReady = true)

/-- 00_scope.md R8: a configuration that breaks one of the four constraints is refused, in every step; one with
`2·N_BITS + 2 > CAPACITY` is legal: changing N_BITS within its legal values keeps a configuration legal. -/
def Obligations.ConstraintBreakingConfigurationIsRefused : Prop :=
  (∀ s : State, (16 < s.nch ∨ 256 < s.cfg.capacity ∨ s.cfg.capacity < 2 ∨ 2 ^ s.cfg.tickW < s.cfg.gapTicks + 2) →
    step s = .refused .illegalConfiguration) ∧
  (∀ (nch n : Nat) (cfg : Config), configLegal nch cfg = true → 1 ≤ n → n ≤ 127 → cfg.capacity < 2 * n + 2 →
    configLegal nch { cfg with nBits := n } = true)

/-- No cycle of a legal configuration stops (60_exceptions.md R200), and no step changes a parameter or the number of
channels (20_memory.md R61, 00_scope.md R6). -/
def Obligations.EveryCycleOfLegalConfigurationGoesOn : Prop :=
  ∀ s : State, s.legal = true →
    ∃ t, step s = .next t ∧ t.legal = true ∧ t.cfg = s.cfg ∧ t.nch = s.nch ∧ t.inputs = s.inputs.tail

/-! ## Encoding -/

/-- Decoding an encoded well-formed instruction gives it back, with every operand at every value (30_encoding.md R72,
R76, R84), for every number of channels. The event word of several channels is the model's reading (log 10). -/
def Obligations.DecodeOfEncodeIsTheInstruction : Prop :=
  ∀ (nch : Nat) (i : Instr), nch ≤ 16 → i.wellFormed nch = true → decodeWire nch (encode nch i) = .ok i

/-- Each legal command word has one meaning: it is the encoding of what it decodes to (30_encoding.md R79, R84). -/
def Obligations.EncodeOfDecodedCommandIsTheWord : Prop :=
  ∀ (nch : Nat) (w : CmdWord) (i : Instr), decodeCmd w = .ok i → encode nch i = .cmd w ∧ i.channel? = some (chOf w)

/-- 30_encoding.md R78: when a word is ILLEGAL, and what an ILLEGAL word does; every other word is a command. -/
def Obligations.IllegalWordsAreExactlyTheReservedOnes : Prop :=
  ∀ w : CmdWord,
    let op := w.toNat / 2 ^ 12
    let imm := w.toNat % 2 ^ 8
    let illegal := 8 ≤ op ∨ (op = 3 ∧ 2 ≤ imm) ∨ (op ≠ 3 ∧ op ≠ 7 ∧ imm ≠ 0)
    (illegal → ∀ s : State, ∃ t, acceptWord exec w s = .next t ∧
      s.Answered t { status := .illegal, tag := .none, bits := 0, data := 0 }) ∧
    (¬ illegal → ∃ i, decodeCmd w = .ok i)

/-- Words written out from 30_encoding.md R77 and R72, one for each row of the table, and reserved words. -/
def Obligations.WrittenOutWordsDecode : Prop :=
  decodeTableWord 16 0b0000000000000000 = some (.nop 0) ∧
  decodeTableWord 16 0b0001001000000000 = some (.resume 2) ∧
  decodeTableWord 16 0b0010111100000000 = some (.decode 15) ∧
  decodeTableWord 16 0b0011000000000001 = some (.setblink 0 true) ∧
  decodeTableWord 16 0b0100000100000000 = some (.rdstatus 1) ∧
  decodeTableWord 16 0b0101100000000000 = some (.rdlen 8) ∧
  decodeTableWord 16 0b0110010000000000 = some (.rdelapsed 4) ∧
  decodeTableWord 16 0b0111000000011010 = some (.rdraw 0 26) ∧
  decodeTableWord 8 0b10 = some (.tick 0) ∧
  decodeTableWord 8 0b11 = some (.tick 1) ∧
  decodeTableWord 16 0b1000000000000000 = none ∧
  decodeTableWord 16 0b0011000000000010 = none ∧
  decodeTableWord 16 0b0000000000000001 = none

/-- 30_encoding.md R86: an assembler refuses an `<e>` outside {0, 1}, an `<idx>` outside 0..255 and a channel outside
0..15, and nothing else; the `imm8` of what it accepts is the operand shown. -/
def Obligations.AssemblerRefusesExactlyTheOperandsOutOfRange : Prop :=
  (∀ n, (Asm.Cmd.nop n).word? = if n ≤ 15 then some (BitVec.ofNat 16 (n * 256)) else none) ∧
  (∀ n, (Asm.Cmd.resume n).word? = if n ≤ 15 then some (BitVec.ofNat 16 (0x1000 + n * 256)) else none) ∧
  (∀ n, (Asm.Cmd.decode n).word? = if n ≤ 15 then some (BitVec.ofNat 16 (0x2000 + n * 256)) else none) ∧
  (∀ n e, (Asm.Cmd.setblink n e).word? =
    if n ≤ 15 ∧ e ≤ 1 then some (BitVec.ofNat 16 (0x3000 + n * 256 + e)) else none) ∧
  (∀ n, (Asm.Cmd.rdstatus n).word? = if n ≤ 15 then some (BitVec.ofNat 16 (0x4000 + n * 256)) else none) ∧
  (∀ n, (Asm.Cmd.rdlen n).word? = if n ≤ 15 then some (BitVec.ofNat 16 (0x5000 + n * 256)) else none) ∧
  (∀ n, (Asm.Cmd.rdelapsed n).word? = if n ≤ 15 then some (BitVec.ofNat 16 (0x6000 + n * 256)) else none) ∧
  (∀ n idx, (Asm.Cmd.rdraw n idx).word? =
    if n ≤ 15 ∧ idx ≤ 255 then some (BitVec.ofNat 16 (0x7000 + n * 256 + idx)) else none)

/-- 30_encoding.md R84, R85: a written TICK carries the level written for each channel, and TICK.M and TICK.S, defined
only for NCH = 1, carry the level whose sample is MARK and SPACE. -/
def Obligations.WrittenTickCarriesItsLevels : Prop :=
  (∀ cfg : Config, ∃ m p, Asm.Tick.mark.irIn? 1 cfg.markLevel = some m ∧ Asm.Tick.space.irIn? 1 cfg.markLevel = some p ∧
    sampleOf cfg (levelOf m 0) = .mark ∧ sampleOf cfg (levelOf p 0) = .space) ∧
  (∀ (nch : Nat) (ml : Bool), nch ≠ 1 → Asm.Tick.mark.irIn? nch ml = none ∧ Asm.Tick.space.irIn? nch ml = none) ∧
  (∀ (nch : Nat) (ml : Bool) (ls : List Nat), nch ≤ 16 → ls.length = nch → (∀ l ∈ ls, l ≤ 1) →
    ∃ v, (Asm.Tick.levels ls).irIn? nch ml = some v ∧ (Instr.tick v).wellFormed nch = true ∧
      ∀ k l, ls[k]? = some l → levelOf v k = decide (l = 1))

/-! ## The cycle and the command port -/

/-- A cycle that carries an accepted command and no TICK runs the instruction its word decodes to, on the state at the
cycle's start, whose channels and parameters are `s`'s, with the pins taken and no command outstanding (30_encoding.md
R71, R74). -/
def Obligations.CommandCycleRunsTheDecodedInstruction : Prop :=
  ∀ (s : State) (i : Instr), s.legal = true → s.pins.rst = false → s.pins.tick = false → s.pins.cmdValid = true →
    s.cmdReady = true → decodeCmd s.pins.cmd = .ok i →
    step s = exec i s.beginCycle ∧ s.beginCycle.chans = s.chans ∧ s.beginCycle.cfg = s.cfg ∧
      s.beginCycle.inputs = s.inputs.tail ∧ s.beginCycle.outstanding = none

/-- A cycle that carries a TICK and no accepted command runs TICK on the levels of `ir_in` (30_encoding.md R71, R72). -/
def Obligations.TickCycleRunsTheTickInstruction : Prop :=
  ∀ s : State, s.legal = true → s.pins.rst = false → s.pins.tick = true →
    (s.pins.cmdValid = false ∨ s.cmdReady = false) →
    step s = exec (.tick s.pins.irIn) s.beginCycle ∧ s.beginCycle.chans = s.chans ∧ s.beginCycle.cfg = s.cfg

/-- 70_reset_and_hazards.md R240: the command runs first, on the state at the cycle's start; the TICK runs on the state
the command left, in particular, after a RESUME, on a channel in IDLE with `length = 0`, and, after a SETBLINK, with the
new `blink_en`. The response stays the one decided before the TICK. -/
def Obligations.CommandRunsFirstThenTheTickOfItsCycle : Prop :=
  ∀ (s : State) (i : Instr), s.legal = true → s.pins.rst = false → s.pins.tick = true → s.pins.cmdValid = true →
    s.cmdReady = true → decodeCmd s.pins.cmd = .ok i →
    s.beginCycle.chans = s.chans ∧
    ∃ u t, exec i s.beginCycle = .next u ∧ step s = exec (.tick s.pins.irIn) u ∧ step s = .next t ∧
      t.outstanding = u.outstanding ∧
      (∀ ch c, i = .resume ch → s.chans[ch.toNat]? = some c →
        u.chans[ch.toNat]? = some { c with state := .idle, length := 0 }) ∧
      (∀ ch en c, i = .setblink ch en → s.chans[ch.toNat]? = some c →
        u.chans[ch.toNat]? = some { c with blinkEn := en })

/-- A RESUME and a MARK in one cycle: a channel that was STOPPED for long enough starts a frame in the very cycle of
the RESUME, its gap counted from before it (70_reset_and_hazards.md R240, R244, 41_host_commands.md R132). -/
def Obligations.ResumeWithMarkInOneCycleStartsAFrame : Prop :=
  ∀ (s : State) (ch : ChanIdx) (c : Channel), s.Inv → s.pins.rst = false → s.pins.tick = true →
    s.pins.cmdValid = true → s.cmdReady = true → decodeCmd s.pins.cmd = .ok (.resume ch) →
    s.chans[ch.toNat]? = some c → levelOf s.pins.irIn ch.toNat = s.cfg.markLevel →
    s.cfg.gapTicks ≤ (inc s.cfg c.elapsedTicks).toNat →
    ∃ t d, step s = .next t ∧ t.chans[ch.toNat]? = some d ∧ d.state = .readingMark ∧ d.length = 1 ∧
      d.elapsedTicks = 0 ∧ d.rawBuffer[0]? = some (inc s.cfg c.elapsedTicks)

/-- 40_tick_sampler.md R119: a cycle without a TICK (and without reset) changes no channel, except as an accepted
RESUME or SETBLINK does. -/
def Obligations.CycleWithoutTickChangesNoChannel : Prop :=
  ∀ s : State, s.legal = true → s.pins.rst = false → s.pins.tick = false →
    ((∀ ch, decodeCmd s.pins.cmd ≠ .ok (.resume ch)) ∧ (∀ ch en, decodeCmd s.pins.cmd ≠ .ok (.setblink ch en)) ∨
      s.pins.cmdValid = false ∨ s.cmdReady = false) →
    ∃ t, step s = .next t ∧ t.chans = s.chans

/-- A command offered while `cmd_ready = 0` is not accepted: the cycle is the same as with `cmd_valid = 0`
(30_encoding.md R74, 70_reset_and_hazards.md R241; log 13). -/
def Obligations.CommandOfferedWhileNotReadyIsNotAccepted : Prop :=
  ∀ (s : State) (p : Pins) (rest : List Pins), s.inputs = p :: rest → s.cmdReady = false →
    step s = step { s with inputs := { p with cmdValid := false } :: rest }

/-- From acceptance on: with `n` cycles to wait, `rsp_valid` and `cmd_ready` are 0 in each of the next `n` cycles, and the
cycle after them drives the response on the ports, its status and tag as the numbers of R81 and R82. When no command is
accepted in that cycle, the one that follows has `rsp_valid = 0` and `cmd_ready = 1` again: the port takes the next command
(30_encoding.md R74, R80). The wait is a free value of the model (log 4), and so is `cmd_ready` in the cycle of `rsp_valid`
(log 5); the statement holds for each. -/
def Obligations.ResponseIsDrivenForOneCycleAfterItsWait : Prop :=
  ∀ (s : State) (r : Response) (n : Nat), s.legal = true → s.outstanding = some { rsp := r, wait := n } →
    (∀ p ∈ s.inputs, p.rst = false) →
    (∀ j, j < n → ∃ u, Host.Core.run core j s = .next u ∧ u.ports.rspValid = false ∧ u.ports.cmdReady = false) ∧
    ∃ t, Host.Core.run core n s = .next t ∧ t.ports.rspValid = true ∧
      t.ports.rspStatus.toNat = (match r.status with
        | .ok => 0
        | .notReady => 1
        | .noMatch => 2
        | .badIndex => 3
        | .badChannel => 4
        | .illegal => 5) ∧
      t.ports.rspTag.toNat = (match r.tag with
        | .none => 0
        | .framed => 1
        | .hash => 2) ∧
      t.ports.rspBits = r.bits ∧ t.ports.rspData = r.data ∧
      (t.pins.cmdValid = false → ∃ v, step t = .next v ∧ v.outstanding = none ∧ v.ports.rspValid = false ∧
        v.ports.cmdReady = true)

/-- Every accepted command word, legal or not, leaves exactly one response outstanding (30_encoding.md R80). -/
def Obligations.EveryAcceptedWordGetsAResponse : Prop :=
  ∀ s : State, s.legal = true → s.pins.rst = false → s.pins.cmdValid = true → s.cmdReady = true →
    ∃ t r n, step s = .next t ∧ t.outstanding = some { rsp := r, wait := n }

/-- 60_exceptions.md R202 at the port: an ILLEGAL word, on any channel field (so before any BAD_CHANNEL, R209), is
answered ILLEGAL and writes no channel; a TICK of the same cycle then runs on the unchanged channels and keeps the answer
(70_reset_and_hazards.md R240). -/
def Obligations.IllegalWordIsAnsweredAndWritesNothing : Prop :=
  ∀ (s : State) (e : DecodeError), s.legal = true → s.pins.rst = false → s.pins.cmdValid = true → s.cmdReady = true →
    decodeCmd s.pins.cmd = .error e →
    ∃ u, s.beginCycle.Answered u { status := .illegal, tag := .none, bits := 0, data := 0 } ∧ u.chans = s.chans ∧
      (s.pins.tick = false → step s = .next u) ∧
      (s.pins.tick = true → ∃ t, step s = exec (.tick s.pins.irIn) u ∧ step s = .next t ∧
        t.outstanding = u.outstanding)

/-! ## Host commands -/

/-- 41_host_commands.md R131. -/
def Obligations.NopAnswersOk : Prop :=
  ∀ (s : State) (ch : ChanIdx), ch.toNat < s.nch →
    ∃ t, exec (.nop ch) s = .next t ∧ s.Answered t { status := .ok, tag := .none, bits := 0, data := 0 }

/-- 41_host_commands.md R132, in every state of the channel. -/
def Obligations.ResumeSetsIdleAndLengthZero : Prop :=
  ∀ (s : State) (ch : ChanIdx) (c : Channel), s.chans[ch.toNat]? = some c →
    ∃ t, exec (.resume ch) s = .next t ∧
      s.AnsweredWriting t ch.toNat { c with state := .idle, length := 0 }
        { status := .ok, tag := .none, bits := 0, data := 0 }

/-- 41_host_commands.md R133: RESUME twice, and a DECODE right after a RESUME. -/
def Obligations.ResumeIsIdempotentAndMakesDecodeNotReady : Prop :=
  ∀ (s : State) (ch : ChanIdx), ch.toNat < s.nch →
    ∃ t u v c, exec (.resume ch) s = .next t ∧ exec (.resume ch) t = .next u ∧ u.chans = t.chans ∧
      t.chans[ch.toNat]? = some c ∧ c.state = .idle ∧ c.length = 0 ∧
      exec (.decode ch) t = .next v ∧ t.Answered v { status := .notReady, tag := .none, bits := 0, data := 0 }

/-- 41_host_commands.md R134; a SETBLINK word with a bit of `imm8[7:1]` set is ILLEGAL. -/
def Obligations.SetblinkWritesBlinkEnable : Prop :=
  (∀ (s : State) (ch : ChanIdx) (en : Bool) (c : Channel), s.chans[ch.toNat]? = some c →
    ∃ t, exec (.setblink ch en) s = .next t ∧
      s.AnsweredWriting t ch.toNat { c with blinkEn := en } { status := .ok, tag := .none, bits := 0, data := 0 }) ∧
  (∀ w : CmdWord, w.toNat / 2 ^ 12 = 3 → 2 ≤ w.toNat % 2 ^ 8 → decodeCmd w = .error .reservedOperandBits)

/-- 41_host_commands.md R135 with the STATUS layout of 10_state.md R29, bit by bit. -/
def Obligations.RdstatusReturnsTheStatusWord : Prop :=
  ∀ (s : State) (ch : ChanIdx) (c : Channel), s.chans[ch.toNat]? = some c →
    ∃ t w, exec (.rdstatus ch) s = .next t ∧ s.Answered t { status := .ok, tag := .none, bits := 0, data := w } ∧
      w.toNat % 4 = (match c.state with
        | .idle => 0
        | .readingMark => 1
        | .readingSpace => 2
        | .stopped => 3) ∧
      w.getLsbD 2 = decide (c.length.toNat = s.cfg.capacity) ∧ w.getLsbD 3 = c.blinkEn ∧ w.getLsbD 4 = c.ledQ ∧
      w.getLsbD 5 = decide (c.state = .stopped) ∧ w.toNat < 2 ^ 6

/-- 41_host_commands.md R136. -/
def Obligations.RdlenReturnsLength : Prop :=
  ∀ (s : State) (ch : ChanIdx) (c : Channel), s.chans[ch.toNat]? = some c →
    ∃ t w, exec (.rdlen ch) s = .next t ∧ s.Answered t { status := .ok, tag := .none, bits := 0, data := w } ∧
      w.toNat = c.length.toNat

/-- 41_host_commands.md R137. -/
def Obligations.RdelapsedReturnsElapsedTicks : Prop :=
  ∀ (s : State) (ch : ChanIdx) (c : Channel), s.chans[ch.toNat]? = some c →
    ∃ t w, exec (.rdelapsed ch) s = .next t ∧ s.Answered t { status := .ok, tag := .none, bits := 0, data := w } ∧
      w.toNat = c.elapsedTicks.toNat

/-- 41_host_commands.md R138 (and 60_exceptions.md R204): an entry below `length`, BAD_INDEX from `length` on. The
premise on the buffer is the invariant `State.Inv` (Obligations.StepKeepsInvariant). -/
def Obligations.RdrawReturnsTheEntryOrBadIndex : Prop :=
  ∀ (s : State) (ch : ChanIdx) (idx : BitVec 8) (c : Channel), s.Inv → s.chans[ch.toNat]? = some c →
    (idx.toNat < c.length.toNat → ∃ t w, exec (.rdraw ch idx) s = .next t ∧ c.rawBuffer[idx.toNat]? = some w ∧
      s.Answered t { status := .ok, tag := .none, bits := 0, data := w }) ∧
    (c.length.toNat ≤ idx.toNat → ∃ t, exec (.rdraw ch idx) s = .next t ∧
      s.Answered t { status := .badIndex, tag := .none, bits := 0, data := 0 })

/-- 60_exceptions.md R203: every one of the eight commands with `ch ≥ NCH`. -/
def Obligations.EveryCommandOnAMissingChannelIsBadChannel : Prop :=
  ∀ (s : State) (i : Instr) (ch : ChanIdx), i.channel? = some ch → s.nch ≤ ch.toNat →
    ∃ t, exec i s = .next t ∧ s.Answered t { status := .badChannel, tag := .none, bits := 0, data := 0 }

/-- 20_memory.md R56: the reads and DECODE (and NOP) change no state, on any channel field, and repeating one in any
state with the same channels and parameters returns the same response. -/
def Obligations.ReadsHaveNoSideEffects : Prop :=
  ∀ (s : State) (i : Instr) (ch : ChanIdx), i.channel? = some ch → (∀ k, i ≠ .resume k) → (∀ k en, i ≠ .setblink k en) →
    ∃ r, ∀ u : State, u.chans = s.chans → u.cfg = s.cfg → ∃ t, exec i u = .next t ∧ u.Answered t r

/-- No command writes a channel other than `ch` (41_host_commands.md R130), and what it answers and leaves in `ch` is
the same whatever the other channels hold (10_state.md R32). -/
def Obligations.CommandActsOnItsChannelAlone : Prop :=
  ∀ (s s' : State) (i : Instr) (ch : ChanIdx), i.channel? = some ch → s.cfg = s'.cfg → s.freeIdx = s'.freeIdx →
    s.chans[ch.toNat]? = s'.chans[ch.toNat]? →
    ∃ t t', exec i s = .next t ∧ exec i s' = .next t' ∧ t.outstanding = t'.outstanding ∧
      t.chans[ch.toNat]? = t'.chans[ch.toNat]? ∧ t.nch = s.nch ∧ ∀ j, j ≠ ch.toNat → t.chans[j]? = s.chans[j]?

/-! ## DECODE -/

/-- 42_frame_decode.md R151: NOT_READY, whatever the buffer holds. -/
def Obligations.DecodeBeforeStoppedIsNotReady : Prop :=
  ∀ (s : State) (ch : ChanIdx) (c : Channel), s.chans[ch.toNat]? = some c → c.state ≠ .stopped →
    ∃ t, exec (.decode ch) s = .next t ∧ s.Answered t { status := .notReady, tag := .none, bits := 0, data := 0 }

/-- 42_frame_decode.md R177 (with R150, R165, R175): a STOPPED channel answers OK exactly when `length ≥ 6`, FRAMED with
the grammar's value and count if the grammar matches, else HASH with 32 and the hash; NO_MATCH below 6. -/
def Obligations.DecodeOfStoppedChannelIsOkFromLengthSix : Prop :=
  ∀ (s : State) (ch : ChanIdx) (c : Channel), s.chans[ch.toNat]? = some c → c.state = .stopped →
    (c.length.toNat < 6 → ∃ t, exec (.decode ch) s = .next t ∧
      s.Answered t { status := .noMatch, tag := .none, bits := 0, data := 0 }) ∧
    (6 ≤ c.length.toNat → ∃ t, exec (.decode ch) s = .next t ∧
      ((∃ v b, grammar s.cfg c = .matched v b ∧
          s.Answered t { status := .ok, tag := .framed, bits := BitVec.ofNat 16 b, data := v }) ∨
        (grammar s.cfg c = .failed ∧
          s.Answered t { status := .ok, tag := .hash, bits := 32, data := hash s.cfg c })))

/-- 42_frame_decode.md R164 (with R160 to R163): the frame of `bits` ends where no whole pair is left or at a separator
outside HDR_SPACE's window, whatever follows it. With at least 12 bits, DECODE recovers exactly the bits, MSB first, when
there are at most 32, and the last 32 of them otherwise; the bit count is not clamped. With fewer than 12 it answers HASH.
A one is a MARK in ONE_MARK's window, a zero a MARK in ZERO_MARK's window and not in ONE_MARK's (R161). -/
def Obligations.DecodeRecoversTheBitsMostSignificantFirst : Prop :=
  ∀ (s : State) (ch : ChanIdx) (c : Channel) (bits : List Bool), s.chans[ch.toNat]? = some c → c.state = .stopped →
    2 * bits.length + 2 ≤ c.length.toNat →
    (c.length.toNat ≤ 2 * bits.length + 3 ∨
      durationMatches s.cfg (c.raw (2 * bits.length + 2)) s.cfg.hdrSpace = false) →
    durationMatches s.cfg (c.raw 1) s.cfg.hdrMark = true →
    (∀ i b, bits[i]? = some b → durationMatches s.cfg (c.raw (2 * i + 2)) s.cfg.hdrSpace = true ∧
      durationMatches s.cfg (c.raw (2 * i + 3)) s.cfg.oneMark = b ∧
      (b = false → durationMatches s.cfg (c.raw (2 * i + 3)) s.cfg.zeroMark = true)) →
    (12 ≤ bits.length → 2 * s.cfg.nBits + 2 ≤ c.length.toNat →
      ∃ t v, exec (.decode ch) s = .next t ∧
        s.Answered t { status := .ok, tag := .framed, bits := BitVec.ofNat 16 bits.length, data := v } ∧
        v.toNat = (bits.foldl (fun n b => 2 * n + b.toNat) 0) % 2 ^ 32 ∧
        (bits.length ≤ 32 → v.toNat = bits.foldl (fun n b => 2 * n + b.toNat) 0)) ∧
    (bits.length < 12 → 6 ≤ c.length.toNat →
      ∃ t, exec (.decode ch) s = .next t ∧
        s.Answered t { status := .ok, tag := .hash, bits := 32, data := hash s.cfg c })

/-- 42_frame_decode.md R166: the least length the grammar can match, and, with a capacity below it, every STOPPED
channel with `length ≥ 6` decodes as HASH. -/
def Obligations.GrammarNeedsItsMinimumLength : Prop :=
  (∀ (cfg : Config) (c : Channel) (v : DataWord) (b : Nat), grammar cfg c = .matched v b →
    max (2 * cfg.nBits + 2) 26 ≤ c.length.toNat) ∧
  (∀ (s : State) (ch : ChanIdx) (c : Channel), s.Inv → s.chans[ch.toNat]? = some c → c.state = .stopped →
    (s.cfg.capacity < 26 ∨ s.cfg.capacity < 2 * s.cfg.nBits + 2) → 6 ≤ c.length.toNat →
    ∃ t, exec (.decode ch) s = .next t ∧
      s.Answered t { status := .ok, tag := .hash, bits := 32, data := hash s.cfg c })

/-- 42_frame_decode.md R163: the bit count of a match is at least 12 and at most `(length - 2) / 2`, which is at most
127 in a state that meets the invariant. -/
def Obligations.MatchedBitCountIsBounded : Prop :=
  ∀ (s : State) (c : Channel) (v : DataWord) (b : Nat), s.Inv → c ∈ s.chans → grammar s.cfg c = .matched v b →
    12 ≤ b ∧ b ≤ (c.length.toNat - 2) / 2 ∧ (c.length.toNat - 2) / 2 ≤ (s.cfg.capacity - 2) / 2 ∧
      (s.cfg.capacity - 2) / 2 ≤ 127

/-- A lone trailing entry is ignored: an odd `length` reads as the even one below it (42_frame_decode.md R162). -/
def Obligations.LoneTrailingEntryIsIgnored : Prop :=
  ∀ (cfg : Config) (c : Channel), c.length.toNat % 2 = 1 →
    grammar cfg c = grammar cfg { c with length := c.length - 1 }

/-- The entries after the separator that ends the frame are ignored, whatever they are (42_frame_decode.md R160): two
buffers of one length that agree up to and with a separator outside the window of HDR_SPACE are read alike. -/
def Obligations.EntriesAfterAFailedSeparatorAreIgnored : Prop :=
  ∀ (cfg : Config) (c d : Channel) (n : Nat), c.length = d.length →
    (∀ i, i ≤ 2 * n + 2 → c.raw i = d.raw i) →
    durationMatches cfg (c.raw (2 * n + 2)) cfg.hdrSpace = false → grammar cfg c = grammar cfg d

/-- A MARK that is neither a one nor a zero fails the grammar, and DECODE falls back to the hash (42_frame_decode.md
R161, R152): here after `n` good bits. -/
def Obligations.MarkOfNeitherDurationFallsBackToTheHash : Prop :=
  ∀ (s : State) (ch : ChanIdx) (c : Channel) (n : Nat), s.chans[ch.toNat]? = some c → c.state = .stopped →
    2 * n + 3 < c.length.toNat → 6 ≤ c.length.toNat →
    (∀ i, i ≤ n → durationMatches s.cfg (c.raw (2 * i + 2)) s.cfg.hdrSpace = true) →
    (∀ i, i < n → durationMatches s.cfg (c.raw (2 * i + 3)) s.cfg.oneMark = true ∨
      durationMatches s.cfg (c.raw (2 * i + 3)) s.cfg.zeroMark = true) →
    durationMatches s.cfg (c.raw (2 * n + 3)) s.cfg.oneMark = false →
    durationMatches s.cfg (c.raw (2 * n + 3)) s.cfg.zeroMark = false →
    ∃ t, exec (.decode ch) s = .next t ∧
      s.Answered t { status := .ok, tag := .hash, bits := 32, data := hash s.cfg c }

/-- 42_frame_decode.md R159: a header outside HDR_MARK's window fails the grammar, and DECODE falls back to the hash
(R152); entry 0, the leading gap, is not examined. -/
def Obligations.HeaderOutsideItsWindowFallsBackToTheHash : Prop :=
  (∀ (s : State) (ch : ChanIdx) (c : Channel), durationMatches s.cfg (c.raw 1) s.cfg.hdrMark = false →
    grammar s.cfg c = .failed ∧
    (s.chans[ch.toNat]? = some c → c.state = .stopped → 6 ≤ c.length.toNat →
      ∃ t, exec (.decode ch) s = .next t ∧
        s.Answered t { status := .ok, tag := .hash, bits := 32, data := hash s.cfg c })) ∧
  (∀ (cfg : Config) (c : Channel) (v : Ticks), grammar cfg (c.setRaw 0 v) = grammar cfg c)

/-- 42_frame_decode.md R155 as a window: `m` and `e` lie at most the looser margin apart. -/
def Obligations.MatchIsTheLooserOfTheTwoMargins : Prop :=
  ∀ (cfg : Config) (m : Ticks) (e : Nat), durationMatches cfg m e = true ↔
    (m.toNat ≤ e + cfg.tolAbs ∧ e ≤ m.toNat + cfg.tolAbs) ∨
    (m.toNat ≤ e + e * cfg.tolPct / 100 ∧ e ≤ m.toNat + e * cfg.tolPct / 100)

/-- 42_frame_decode.md R172: the three values of the comparison; the two conditions never hold together. -/
def Obligations.ComparisonHasThreeExclusiveCases : Prop :=
  ∀ (cfg : Config) (a b : Ticks), cfg.hashTolPct ≤ 99 →
    (cmpDurations cfg a b = -1 ↔ 100 * a.toNat < (100 - cfg.hashTolPct) * b.toNat) ∧
    (cmpDurations cfg a b = 1 ↔ 100 * b.toNat < (100 - cfg.hashTolPct) * a.toNat) ∧
    (cmpDurations cfg a b = 0 ↔ ¬ 100 * a.toNat < (100 - cfg.hashTolPct) * b.toNat ∧
      ¬ 100 * b.toNat < (100 - cfg.hashTolPct) * a.toNat) ∧
    ¬ (100 * a.toNat < (100 - cfg.hashTolPct) * b.toNat ∧ 100 * b.toNat < (100 - cfg.hashTolPct) * a.toNat) ∧
    cmpDurations cfg b a = - cmpDurations cfg a b

/-- 42_frame_decode.md R173: the 32-bit form of each comparison value. -/
def Obligations.ComparisonValueIsTwosComplement : Prop :=
  word32 (-1) = 0xFFFFFFFF#32 ∧ word32 0 = 0x00000000#32 ∧ word32 1 = 0x00000001#32

/-- 42_frame_decode.md R170 (with R174): the hash is the fold of "multiply, then XOR" over the `length - 3` comparisons
of `raw[i]` with `raw[i + 2]`, i from 1. -/
def Obligations.HashFoldsTheComparisons : Prop :=
  ∀ (cfg : Config) (c : Channel),
    hash cfg c = (List.range (c.length.toNat - 3)).foldl
      (fun h j => (h * cfg.fnvPrime) ^^^ word32 (cmpDurations cfg (c.raw (j + 1)) (c.raw (j + 3)))) cfg.fnvBasis

/-- 42_frame_decode.md R176: the hash is a function of `length` and `raw[1..length-1]` alone: neither entry 0 nor a
stale entry nor any other field enters it. -/
def Obligations.HashReadsOnlyTheEntriesOfTheFrame : Prop :=
  ∀ (cfg : Config) (c d : Channel), c.length = d.length →
    (∀ i, 1 ≤ i → i < c.length.toNat → c.raw i = d.raw i) → hash cfg c = hash cfg d

/-- DECODE's answer is a function of `state`, `length` and `raw[1..length-1]`: no stale entry, not the leading gap, not
the counter and not the indicator enter it (10_state.md R22, R24, 42_frame_decode.md R159). -/
def Obligations.DecodeReadsOnlyTheEntriesOfTheFrame : Prop :=
  ∀ (cfg : Config) (c d : Channel), c.state = d.state → c.length = d.length →
    (∀ i, 1 ≤ i → i < c.length.toNat → c.raw i = d.raw i) → decodeResponse cfg c = decodeResponse cfg d

/-! ## TICK -/

/-- 40_tick_sampler.md R103: the counter's increment. -/
def Obligations.CounterIncrementWrapsOrSaturates : Prop :=
  ∀ (cfg : Config) (x : Ticks), 8 ≤ cfg.tickW → cfg.tickW ≤ 32 →
    (cfg.cntMode = .wrap → (inc cfg x).toNat = (x.toNat + 1) % 2 ^ cfg.tickW) ∧
    (cfg.cntMode = .saturate → (inc cfg x).toNat = min (x.toNat + 1) (2 ^ cfg.tickW - 1))

/-- 40_tick_sampler.md R120, the transition table, row by row, for every channel of every state. `e'` is the counter
after the increment. An entry is written only in the three recording rows, at index 0 or `length`. -/
def Obligations.TickFollowsTheTransitionTable : Prop :=
  ∀ (s : State) (irIn : Levels), ∃ t, exec (.tick irIn) s = .next t ∧ t.nch = s.nch ∧
    ∀ (k : Nat) (c : Channel), s.chans[k]? = some c → ∃ d, t.chans[k]? = some d ∧
      let e' := inc s.cfg c.elapsedTicks
      let isMark : Prop := levelOf irIn k = s.cfg.markLevel
      let after := fun (st : ChState) (len : BitVec 9) (el : Ticks) (raw : List Ticks) =>
        d.state = st ∧ d.length = len ∧ d.elapsedTicks = el ∧ d.rawBuffer = raw
      if s.cfg.capacity ≤ c.length.toNat ∨ c.state = .stopped then
        (isMark → after .stopped c.length 0 c.rawBuffer) ∧ (¬ isMark → after .stopped c.length e' c.rawBuffer)
      else if c.state = .idle then
        (¬ isMark → after .idle c.length e' c.rawBuffer) ∧
        (isMark → e'.toNat < s.cfg.gapTicks → after .idle c.length 0 c.rawBuffer) ∧
        (isMark → s.cfg.gapTicks ≤ e'.toNat → after .readingMark 1 0 (c.rawBuffer.set 0 e'))
      else if c.state = .readingMark then
        (isMark → after .readingMark c.length e' c.rawBuffer) ∧
        (¬ isMark → after .readingSpace (c.length + 1) 0 (c.rawBuffer.set c.length.toNat e'))
      else
        (isMark → after .readingMark (c.length + 1) 0 (c.rawBuffer.set c.length.toNat e')) ∧
        (¬ isMark → s.cfg.gapTicks < e'.toNat → after .stopped c.length e' c.rawBuffer) ∧
        (¬ isMark → e'.toNat ≤ s.cfg.gapTicks → after .readingSpace c.length e' c.rawBuffer)

/-- 40_tick_sampler.md R118 on every TICK, in every state, and the rest of TICK's frame: it writes no `blink_en`, no
parameter, no outstanding response and no pins. -/
def Obligations.TickMirrorsTheSampleWhileBlinkIsEnabled : Prop :=
  ∀ (s : State) (irIn : Levels), ∃ t, exec (.tick irIn) s = .next t ∧ t.cfg = s.cfg ∧
    t.outstanding = s.outstanding ∧ t.inputs = s.inputs ∧ t.freeIdx = s.freeIdx ∧
    ∀ (k : Nat) (c : Channel), s.chans[k]? = some c → ∃ d, t.chans[k]? = some d ∧ d.blinkEn = c.blinkEn ∧
      (c.blinkEn = true → d.ledQ = decide (levelOf irIn k = s.cfg.markLevel)) ∧ (c.blinkEn = false → d.ledQ = c.ledQ)

/-- The `led` port: one bit for each channel, `led[ch] = led_q` (30_encoding.md R70), in every cycle, a reset cycle too;
after a TICK it shows the sample where `blink_en = 1` and is as before elsewhere (40_tick_sampler.md R118). That the port
shows `led_q` as it is at the cycle's start is the model's reading (log 14). -/
def Obligations.LedPortShowsTheIndicator : Prop :=
  ∀ (s : State) (irIn : Levels), ∃ t, exec (.tick irIn) s = .next t ∧ s.ports.led.length = s.nch ∧
    t.ports.led.length = s.nch ∧
    ∀ (k : Nat) (c : Channel), s.chans[k]? = some c → s.ports.led[k]? = some c.ledQ ∧
      t.ports.led[k]? = some (if c.blinkEn = true then decide (levelOf irIn k = s.cfg.markLevel) else c.ledQ)

/-- 40_tick_sampler.md R102, 10_state.md R32: what TICK makes of a channel depends on that channel and its own level
alone. -/
def Obligations.TickStepsEachChannelOnItsOwn : Prop :=
  ∀ (s s' : State) (irIn irIn' : Levels) (k : Nat), s.cfg = s'.cfg → s.chans[k]? = s'.chans[k]? →
    levelOf irIn k = levelOf irIn' k →
    ∃ t t', exec (.tick irIn) s = .next t ∧ exec (.tick irIn') s' = .next t' ∧ t.chans[k]? = t'.chans[k]?

/-- 40_tick_sampler.md R105: a full buffer is STOPPED on the next TICK whatever the sample, with no entry written. -/
def Obligations.FullBufferIsStoppedByTheNextTick : Prop :=
  ∀ (s : State) (irIn : Levels) (k : Nat) (c : Channel), s.chans[k]? = some c → s.cfg.capacity ≤ c.length.toNat →
    ∃ t d, exec (.tick irIn) s = .next t ∧ t.chans[k]? = some d ∧ d.state = .stopped ∧ d.length = c.length ∧
      d.rawBuffer = c.rawBuffer ∧
      d.elapsedTicks = (if levelOf irIn k = s.cfg.markLevel then 0 else inc s.cfg c.elapsedTicks)

/-- 40_tick_sampler.md R116, the runs: after the tick that ended the previous run (the counter is 0), `n` more samples
of the run and one of the other level record an entry of exactly `n + 1`, the run's length. A MARK run may be as long as
the counter goes; a SPACE run is recorded only when it stays within the gap threshold. -/
def Obligations.RecordedEntryIsTheLengthOfItsRun : Prop :=
  ∀ (s : State) (k : Nat) (c : Channel) (run : List Levels) (last : Levels), s.Inv → s.chans[k]? = some c →
    c.elapsedTicks = 0 → c.length.toNat < s.cfg.capacity → run.length + 1 < 2 ^ s.cfg.tickW →
    (c.state = .readingMark → (∀ l ∈ run, levelOf l k = s.cfg.markLevel) → levelOf last k ≠ s.cfg.markLevel →
      ∃ t d, execTicks (run ++ [last]) s = .next t ∧ t.chans[k]? = some d ∧ d.state = .readingSpace ∧
        d.length.toNat = c.length.toNat + 1 ∧ d.elapsedTicks = 0 ∧
        d.rawBuffer = c.rawBuffer.set c.length.toNat (BitVec.ofNat 32 (run.length + 1))) ∧
    (c.state = .readingSpace → (∀ l ∈ run, levelOf l k ≠ s.cfg.markLevel) → levelOf last k = s.cfg.markLevel →
      run.length ≤ s.cfg.gapTicks →
      ∃ t d, execTicks (run ++ [last]) s = .next t ∧ t.chans[k]? = some d ∧ d.state = .readingMark ∧
        d.length.toNat = c.length.toNat + 1 ∧ d.elapsedTicks = 0 ∧
        d.rawBuffer = c.rawBuffer.set c.length.toNat (BitVec.ofNat 32 (run.length + 1)))

/-- 40_tick_sampler.md R116, the leading gap: from IDLE with the counter at `g0`, a run of SPACE samples and the MARK
that ends it record the counter's value at that MARK, `g0 + s + 1`, as entry 0. -/
def Obligations.LeadingGapIsTheCounterAtTheMarkThatEndsIt : Prop :=
  ∀ (s : State) (k : Nat) (c : Channel) (run : List Levels) (last : Levels), s.Inv → s.chans[k]? = some c →
    c.state = .idle → c.elapsedTicks.toNat + run.length + 1 < 2 ^ s.cfg.tickW →
    s.cfg.gapTicks ≤ c.elapsedTicks.toNat + run.length + 1 →
    (∀ l ∈ run, levelOf l k ≠ s.cfg.markLevel) → levelOf last k = s.cfg.markLevel →
    ∃ t d, execTicks (run ++ [last]) s = .next t ∧ t.chans[k]? = some d ∧ d.state = .readingMark ∧ d.length = 1 ∧
      d.elapsedTicks = 0 ∧ d.rawBuffer = c.rawBuffer.set 0 (BitVec.ofNat 32 (c.elapsedTicks.toNat + run.length + 1))

/-- After reset no frame starts within the first GAP_TICKS - 1 ticks, whatever the levels: every MARK among them is
noise (70_reset_and_hazards.md R231, 40_tick_sampler.md R107, R117). -/
def Obligations.NoFrameStartsBeforeTheGapAfterReset : Prop :=
  ∀ (nch : Nat) (cfg : Config) (ls : List Levels), configLegal nch cfg = true → ls.length < cfg.gapTicks →
    ∃ t, execTicks ls (State.resetOf nch cfg) = .next t ∧ t.nch = nch ∧
      ∀ c ∈ t.chans, c.state = .idle ∧ c.length = 0 ∧ c.elapsedTicks.toNat ≤ ls.length

/-! ## The whole machine -/

/-- Every step keeps the invariant, from every state that meets it, whatever the pins: the widths of 10_state.md R20,
`length ≤ CAPACITY` (R33) and the relation of `state` and `length` (R34). Holding TICK_W bits in 32-bit words is the
model's choice (log 8). -/
def Obligations.StepKeepsInvariant : Prop :=
  ∀ s t : State, s.Inv → step s = .next t → t.Inv

/-- 10_state.md R33 and R34: in every state that any legal configuration reaches from reset, with any input cycles
(resets among them). -/
def Obligations.ReachableChannelsKeepLengthAndState : Prop :=
  ∀ (nch : Nat) (cfg : Config) (ins : List Pins) (n : Nat), configLegal nch cfg = true →
    ∃ t, Host.Core.run core n { State.resetOf nch cfg with inputs := ins } = .next t ∧
      ∀ c ∈ t.chans, c.length.toNat ≤ cfg.capacity ∧
        (c.state = .idle → c.length = 0) ∧
        (c.state = .readingMark → c.length.toNat % 2 = 1 ∧ 1 ≤ c.length.toNat) ∧
        (c.state = .readingSpace → c.length.toNat % 2 = 0 ∧ 2 ≤ c.length.toNat) ∧
        (c.state = .stopped → c.length.toNat % 2 = 0 ∨ c.length.toNat = cfg.capacity)

/-- 20_memory.md R58, the handoff: once a channel is STOPPED and until a RESUME for it is offered (or a reset comes),
no number of cycles, with any ticks and any other commands, changes its `state`, `length` or `rawBuffer`, nor what
RDLEN, RDRAW or DECODE would return. -/
def Obligations.StoppedFrameIsStableUntilResume : Prop :=
  ∀ (s : State) (k : Nat) (c : Channel) (n : Nat), s.legal = true → s.chans[k]? = some c → c.state = .stopped →
    (∀ p ∈ s.inputs, p.rst = false ∧ p.resumes k = false) →
    ∃ t d, Host.Core.run core n s = .next t ∧ t.chans[k]? = some d ∧ d.state = .stopped ∧ d.length = c.length ∧
      d.rawBuffer = c.rawBuffer ∧ decodeResponse t.cfg d = decodeResponse s.cfg c ∧
      ∀ idx, d.entry? idx = c.entry? idx

/-- Only a RESUME takes a channel out of STOPPED (10_state.md R35), in a cycle without reset. -/
def Obligations.OnlyResumeLeavesStopped : Prop :=
  ∀ (s t : State) (k : Nat) (c d : Channel), s.pins.rst = false → step s = .next t → s.chans[k]? = some c →
    t.chans[k]? = some d → c.state = .stopped → (d.state ≠ .stopped ∨ d.length ≠ c.length) →
    s.cmdReady = true ∧ s.pins.resumes k = true
end

