-- ==== Sys2Proof/Laws/State.lean ====
section
/-! SUPPORT. One lemma per field of each update, so that no later proof unfolds a record update. -/

namespace Sys2Proof.Machine

/-! ## State updates -/

section
variable (s : State) (r : Response) (k : Nat) (c : Channel)

@[simp] theorem State.withResponse_cfg : (s.withResponse r).cfg = s.cfg := rfl
@[simp] theorem State.withResponse_chans : (s.withResponse r).chans = s.chans := rfl
@[simp] theorem State.withResponse_inputs : (s.withResponse r).inputs = s.inputs := rfl
@[simp] theorem State.withResponse_freeIdx : (s.withResponse r).freeIdx = s.freeIdx := rfl
@[simp] theorem State.withResponse_outstanding :
    (s.withResponse r).outstanding = some { rsp := r, wait := Config.freeRspWait s.freeIdx } := rfl

@[simp] theorem State.setChan_cfg : (s.setChan k c).cfg = s.cfg := rfl
@[simp] theorem State.setChan_chans : (s.setChan k c).chans = s.chans.set k c := rfl
@[simp] theorem State.setChan_inputs : (s.setChan k c).inputs = s.inputs := rfl
@[simp] theorem State.setChan_freeIdx : (s.setChan k c).freeIdx = s.freeIdx := rfl
@[simp] theorem State.setChan_outstanding : (s.setChan k c).outstanding = s.outstanding := rfl

@[simp] theorem State.advance_cfg : s.advance.cfg = s.cfg := rfl
@[simp] theorem State.advance_chans : s.advance.chans = s.chans := rfl
@[simp] theorem State.advance_inputs : s.advance.inputs = s.inputs.tail := rfl
@[simp] theorem State.advance_freeIdx : s.advance.freeIdx = s.freeIdx + 1 := rfl
@[simp] theorem State.advance_outstanding : s.advance.outstanding = s.outstanding := rfl

@[simp] theorem State.beginCycle_cfg : s.beginCycle.cfg = s.cfg := rfl
@[simp] theorem State.beginCycle_chans : s.beginCycle.chans = s.chans := rfl
@[simp] theorem State.beginCycle_inputs : s.beginCycle.inputs = s.inputs.tail := rfl
@[simp] theorem State.beginCycle_freeIdx : s.beginCycle.freeIdx = s.freeIdx + 1 := rfl
@[simp] theorem State.beginCycle_outstanding : s.beginCycle.outstanding = nextOutstanding s.outstanding := rfl

@[simp] theorem State.resetCycle_cfg : s.resetCycle.cfg = s.cfg := rfl
@[simp] theorem State.resetCycle_chans :
    s.resetCycle.chans = (List.range s.nch).map (resetChannel s.cfg s.freeIdx) := rfl
@[simp] theorem State.resetCycle_inputs : s.resetCycle.inputs = s.inputs.tail := rfl
@[simp] theorem State.resetCycle_freeIdx : s.resetCycle.freeIdx = s.freeIdx + 1 := rfl
@[simp] theorem State.resetCycle_outstanding : s.resetCycle.outstanding = none := rfl

@[simp] theorem State.resetOf_cfg (nch : Nat) (cfg : Config) : (State.resetOf nch cfg).cfg = cfg := rfl
@[simp] theorem State.resetOf_chans (nch : Nat) (cfg : Config) :
    (State.resetOf nch cfg).chans = List.replicate nch (Channel.reset cfg) := rfl
@[simp] theorem State.resetOf_outstanding (nch : Nat) (cfg : Config) :
    (State.resetOf nch cfg).outstanding = none := rfl
@[simp] theorem State.resetOf_inputs (nch : Nat) (cfg : Config) : (State.resetOf nch cfg).inputs = [] := rfl

/-! ## The number of channels -/

@[simp] theorem State.withResponse_nch : (s.withResponse r).nch = s.nch := rfl
@[simp] theorem State.setChan_nch : (s.setChan k c).nch = s.nch := by simp [State.nch]
@[simp] theorem State.beginCycle_nch : s.beginCycle.nch = s.nch := rfl
@[simp] theorem State.resetCycle_nch : s.resetCycle.nch = s.nch := by simp [State.nch]
@[simp] theorem State.resetOf_nch (nch : Nat) (cfg : Config) : (State.resetOf nch cfg).nch = nch := by
  simp [State.nch]

/-- Legality is a fact of the parameters and the number of channels. -/
theorem State.legal_congr {s t : State} (hc : t.cfg = s.cfg) (hn : t.nch = s.nch) : t.legal = s.legal := by
  simp only [State.legal, hc, hn]

end

/-! ## Channel updates -/

section
variable (c : Channel) (cfg : Config) (i : Nat) (v : Ticks) (st : ChState)

@[simp] theorem Channel.setRaw_state : (c.setRaw i v).state = c.state := rfl
@[simp] theorem Channel.setRaw_elapsedTicks : (c.setRaw i v).elapsedTicks = c.elapsedTicks := rfl
@[simp] theorem Channel.setRaw_length : (c.setRaw i v).length = c.length := rfl
@[simp] theorem Channel.setRaw_rawBuffer : (c.setRaw i v).rawBuffer = c.rawBuffer.set i v := rfl
@[simp] theorem Channel.setRaw_blinkEn : (c.setRaw i v).blinkEn = c.blinkEn := rfl
@[simp] theorem Channel.setRaw_ledQ : (c.setRaw i v).ledQ = c.ledQ := rfl

@[simp] theorem Channel.clearElapsed_state : c.clearElapsed.state = c.state := rfl
@[simp] theorem Channel.clearElapsed_elapsedTicks : c.clearElapsed.elapsedTicks = 0 := rfl
@[simp] theorem Channel.clearElapsed_length : c.clearElapsed.length = c.length := rfl
@[simp] theorem Channel.clearElapsed_rawBuffer : c.clearElapsed.rawBuffer = c.rawBuffer := rfl
@[simp] theorem Channel.clearElapsed_blinkEn : c.clearElapsed.blinkEn = c.blinkEn := rfl
@[simp] theorem Channel.clearElapsed_ledQ : c.clearElapsed.ledQ = c.ledQ := rfl

@[simp] theorem Channel.record_state : (c.record st).state = st := rfl
@[simp] theorem Channel.record_elapsedTicks : (c.record st).elapsedTicks = 0 := rfl
@[simp] theorem Channel.record_length : (c.record st).length = c.length + 1 := rfl
@[simp] theorem Channel.record_rawBuffer :
    (c.record st).rawBuffer = c.rawBuffer.set c.length.toNat c.elapsedTicks := rfl
@[simp] theorem Channel.record_blinkEn : (c.record st).blinkEn = c.blinkEn := rfl
@[simp] theorem Channel.record_ledQ : (c.record st).ledQ = c.ledQ := rfl

@[simp] theorem Channel.startFrame_state : c.startFrame.state = .readingMark := rfl
@[simp] theorem Channel.startFrame_elapsedTicks : c.startFrame.elapsedTicks = 0 := rfl
@[simp] theorem Channel.startFrame_length : c.startFrame.length = 1 := rfl
@[simp] theorem Channel.startFrame_rawBuffer : c.startFrame.rawBuffer = c.rawBuffer.set 0 c.elapsedTicks := rfl
@[simp] theorem Channel.startFrame_blinkEn : c.startFrame.blinkEn = c.blinkEn := rfl
@[simp] theorem Channel.startFrame_ledQ : c.startFrame.ledQ = c.ledQ := rfl

@[simp] theorem Channel.reset_state : (Channel.reset cfg).state = .idle := rfl
@[simp] theorem Channel.reset_elapsedTicks : (Channel.reset cfg).elapsedTicks = 0 := rfl
@[simp] theorem Channel.reset_length : (Channel.reset cfg).length = 0 := rfl
@[simp] theorem Channel.reset_rawBuffer : (Channel.reset cfg).rawBuffer = List.replicate cfg.capacity 0 := rfl
@[simp] theorem Channel.reset_blinkEn : (Channel.reset cfg).blinkEn = false := rfl
@[simp] theorem Channel.reset_ledQ : (Channel.reset cfg).ledQ = false := rfl

variable (n k : Nat)

@[simp] theorem resetChannel_state : (resetChannel cfg n k).state = .idle := rfl
@[simp] theorem resetChannel_elapsedTicks : (resetChannel cfg n k).elapsedTicks = 0 := rfl
@[simp] theorem resetChannel_length : (resetChannel cfg n k).length = 0 := rfl
@[simp] theorem resetChannel_rawBuffer : (resetChannel cfg n k).rawBuffer =
    (List.range cfg.capacity).map fun i => truncTicks cfg (Config.freeRaw n k i) := rfl
@[simp] theorem resetChannel_blinkEn : (resetChannel cfg n k).blinkEn = false := rfl
@[simp] theorem resetChannel_ledQ : (resetChannel cfg n k).ledQ = false := rfl

end

end Sys2Proof.Machine
end

