-- ==== Sys2Proof/Laws/Ops.lean ====
section
/-! SUPPORT. What each shared operation can do, said once: the counter, the raw buffer, the response, the channel
check, the command port. -/

namespace Sys2Proof.Machine

/-! ## Outcomes -/

@[simp] theorem andThen_next (s : State) (f : State → Host.Outcome State Fault Refusal) :
    andThen (.next s) f = f s := rfl

/-- A continued outcome goes on only through a next state. -/
theorem andThen_eq_next {o : Host.Outcome State Fault Refusal} {f : State → Host.Outcome State Fault Refusal}
    {t : State} (h : andThen o f = .next t) : ∃ u, o = .next u ∧ f u = .next t := by
  cases o with
  | next u => exact ⟨u, rfl, h⟩
  | fault e => exact e.casesOn
  | refused r => cases h

/-! ## Legal configurations -/

/-- What a legal configuration gives the proofs (00_scope.md R7, R8). -/
theorem configLegal_bounds {nch : Nat} {cfg : Config} (h : configLegal nch cfg = true) :
    1 ≤ nch ∧ nch ≤ 16 ∧ 8 ≤ cfg.tickW ∧ cfg.tickW ≤ 32 ∧ 2 ≤ cfg.capacity ∧ cfg.capacity ≤ 256 ∧
      1 ≤ cfg.gapTicks ∧ cfg.gapTicks + 2 ≤ 2 ^ cfg.tickW := by
  simp only [configLegal, decide_eq_true_eq] at h
  omega

/-- A counter of TICK_W bits fits the word that holds it. -/
theorem two_pow_tickW_le {w : Nat} (h : w ≤ 32) : 2 ^ w ≤ 2 ^ 32 := Nat.pow_le_pow_right (by omega) h

/-! ## The counter -/

/-- What a counter of at most 32 bits holds, as a number. -/
theorem toNat_ofNat_of_lt_two_pow {w n : Nat} (hw : w ≤ 32) (h : n < 2 ^ w) : (BitVec.ofNat 32 n).toNat = n := by
  rw [BitVec.toNat_ofNat, Nat.mod_eq_of_lt (lt_of_lt_of_le h (two_pow_tickW_le hw))]

/-- The increment never passes the counter's width. -/
theorem inc_lt (cfg : Config) (hw : cfg.tickW ≤ 32) (x : Ticks) : (inc cfg x).toNat < 2 ^ cfg.tickW := by
  have hpos : 0 < 2 ^ cfg.tickW := Nat.two_pow_pos _
  unfold inc
  split
  · have h := Nat.mod_lt (x.toNat + 1) hpos
    rw [toNat_ofNat_of_lt_two_pow hw h]
    exact h
  · have h : min (x.toNat + 1) (2 ^ cfg.tickW - 1) < 2 ^ cfg.tickW := by omega
    rw [toNat_ofNat_of_lt_two_pow hw h]
    exact h

/-- Below the top of the counter's range the increment adds one, in both modes. -/
theorem inc_eq_of_lt (cfg : Config) (x : Ticks) (h : x.toNat + 1 < 2 ^ cfg.tickW) :
    inc cfg x = BitVec.ofNat 32 (x.toNat + 1) := by
  unfold inc
  split
  · rw [Nat.mod_eq_of_lt h]
  · rw [Nat.min_eq_left (by omega)]

/-- The increment adds at most one. -/
theorem inc_le (cfg : Config) (hw : cfg.tickW ≤ 32) (x : Ticks) : (inc cfg x).toNat ≤ x.toNat + 1 := by
  have hpos : 0 < 2 ^ cfg.tickW := Nat.two_pow_pos _
  unfold inc
  split
  · rw [toNat_ofNat_of_lt_two_pow hw (Nat.mod_lt _ hpos)]
    exact Nat.mod_le _ _
  · rw [toNat_ofNat_of_lt_two_pow hw (by omega)]
    exact Nat.min_le_left _ _

theorem truncTicks_lt (cfg : Config) (hw : cfg.tickW ≤ 32) (x : Ticks) :
    (truncTicks cfg x).toNat < 2 ^ cfg.tickW := by
  have h := Nat.mod_lt x.toNat (Nat.two_pow_pos cfg.tickW)
  rw [truncTicks, toNat_ofNat_of_lt_two_pow hw h]
  exact h

/-! ## The raw buffer -/

theorem Channel.raw_eq_of_getElem? {c : Channel} {i : Nat} {v : Ticks} (h : c.rawBuffer[i]? = some v) :
    c.raw i = v := by
  simp [Channel.raw, List.getD, h]

/-- An entry of the buffer, read through `raw`. -/
theorem Channel.getElem?_raw {c : Channel} {i : Nat} (h : i < c.rawBuffer.length) :
    c.rawBuffer[i]? = some (c.raw i) := by
  simp [Channel.raw, List.getD, h]

/-- A write keeps the buffer's form: its number of entries and their width. -/
theorem rawWf_set {cfg : Config} {raw : List Ticks} (h : rawWf cfg raw) (i : Nat) {v : Ticks}
    (hv : v.toNat < 2 ^ cfg.tickW) : rawWf cfg (raw.set i v) := by
  refine ⟨by rw [List.length_set]; exact h.1, fun w hw => ?_⟩
  rcases List.mem_or_eq_of_mem_set hw with hm | rfl
  · exact h.2 w hm
  · exact hv

/-- A read after a write to the same entry gives the value written. -/
theorem Channel.setRaw_raw_same {c : Channel} {i : Nat} {v : Ticks} (h : i < c.rawBuffer.length) :
    (c.setRaw i v).raw i = v :=
  Channel.raw_eq_of_getElem? (by simp [h])

/-- A write leaves every other entry alone. -/
theorem Channel.setRaw_raw_other {c : Channel} {i j : Nat} {v : Ticks} (h : i ≠ j) :
    (c.setRaw i v).raw j = c.raw j := by
  simp [Channel.raw, List.getD, List.getElem?_set_ne h]

/-! ## Responses and the channel check -/

@[simp] theorem respond_eq (s : State) (r : Response) : respond s r = .next (s.withResponse r) := rfl

theorem State.answered_withResponse (s : State) (r : Response) : s.Answered (s.withResponse r) r :=
  ⟨⟨_, rfl⟩, rfl, rfl, rfl, rfl⟩

/-- Writing a channel that exists and answering: everything the two writing commands do. -/
theorem State.answeredWriting_setChan {s : State} {k : Nat} {c : Channel} (h : s.chans[k]? = some c) (d : Channel)
    (r : Response) : s.AnsweredWriting ((s.setChan k d).withResponse r) k d r where
  outstanding := ⟨_, rfl⟩
  written := by
    obtain ⟨hk, -⟩ := List.getElem?_eq_some_iff.mp h
    simp [hk]
  others := fun j hj => by simp [List.getElem?_set_ne (Ne.symm hj)]
  nch := by simp
  cfg := rfl
  inputs := rfl
  freeIdx := rfl

theorem withChannel_some {s : State} {ch : ChanIdx} {c : Channel} (h : s.chans[ch.toNat]? = some c)
    (rule : Channel → Host.Outcome State Fault Refusal) : withChannel s ch rule = rule c := by
  rw [withChannel, h]

theorem withChannel_none {s : State} {ch : ChanIdx} (h : s.chans[ch.toNat]? = none)
    (rule : Channel → Host.Outcome State Fault Refusal) :
    withChannel s ch rule = .next (s.withResponse (.bare .badChannel)) := by
  rw [withChannel, h, respond_eq]

/-- A channel below NCH exists. -/
theorem State.exists_chan {s : State} {k : Nat} (h : k < s.nch) : ∃ c, s.chans[k]? = some c :=
  ⟨s.chans[k]'h, List.getElem?_eq_getElem h⟩

theorem State.chan_none {s : State} {k : Nat} (h : s.nch ≤ k) : s.chans[k]? = none :=
  List.getElem?_eq_none h

/-! ## The command port -/

theorem State.cmdReady_of_none {s : State} (h : s.outstanding = none) : s.cmdReady = true := by
  rw [State.cmdReady, h]

theorem State.cmdReady_of_wait {s : State} {r : Response} {n : Nat}
    (h : s.outstanding = some { rsp := r, wait := n + 1 }) : s.cmdReady = false := by
  rw [State.cmdReady, h]

theorem State.ports_cmdReady (s : State) : s.ports.cmdReady = (!s.pins.rst && s.cmdReady) := by
  unfold State.ports; split <;> rfl

theorem State.ports_rspValid (s : State) : s.ports.rspValid = s.driven.isSome := by
  unfold State.ports
  cases s.driven <;> rfl

/-- The indicators, in every cycle (30_encoding.md R70). -/
theorem State.ports_led (s : State) : s.ports.led = s.chans.map Channel.ledQ := by
  unfold State.ports
  split <;> rfl

/-- The response ports of a cycle that drives a response (30_encoding.md R80 to R82). -/
theorem State.ports_of_driven {s : State} {r : Response} (h : s.driven = some r) :
    s.ports.rspValid = true ∧ s.ports.rspStatus = r.status.code ∧ s.ports.rspTag = r.tag.code ∧
      s.ports.rspBits = r.bits ∧ s.ports.rspData = r.data := by
  simp [State.ports, h]

/-- When the port is ready, the cycle begins with no command outstanding. -/
theorem nextOutstanding_of_cmdReady {s : State} (h : s.cmdReady = true) : nextOutstanding s.outstanding = none := by
  unfold State.cmdReady at h
  split at h <;> simp_all [nextOutstanding]

theorem State.pins_nil {s : State} (h : s.inputs = []) : s.pins = Pins.idle := by rw [State.pins, h]; rfl

theorem State.pins_cons {s : State} {p : Pins} {ps : List Pins} (h : s.inputs = p :: ps) : s.pins = p := by
  rw [State.pins, h]; rfl

/-- The pins of the next cycle are those of a listed cycle, or idle. -/
theorem State.pins_mem_or_idle (s : State) : s.pins ∈ s.inputs ∨ s.pins = Pins.idle := by
  cases h : s.inputs with
  | nil => exact .inr (s.pins_nil h)
  | cons p ps => left; rw [s.pins_cons h]; simp

end Sys2Proof.Machine
end

