-- ==== Sys2Proof/Laws/Command.lean ====
section
/-! SUPPORT. Everything a host command can do, said once, and the completion of each command on a channel that
exists. -/

namespace Sys2Proof.Machine

/-- The state that has the channels `chs` and the response `r`, and is `s` otherwise. -/
def State.replied (s : State) (chs : List Channel) (r : Response) : State :=
  { s with chans := chs, outstanding := some { rsp := r, wait := Config.freeRspWait s.freeIdx } }

section
variable (s : State) (chs : List Channel) (r : Response)

@[simp] theorem State.replied_cfg : (s.replied chs r).cfg = s.cfg := rfl
@[simp] theorem State.replied_chans : (s.replied chs r).chans = chs := rfl
@[simp] theorem State.replied_nch : (s.replied chs r).nch = chs.length := rfl
@[simp] theorem State.replied_inputs : (s.replied chs r).inputs = s.inputs := rfl
@[simp] theorem State.replied_freeIdx : (s.replied chs r).freeIdx = s.freeIdx := rfl
@[simp] theorem State.replied_outstanding :
    (s.replied chs r).outstanding = some { rsp := r, wait := Config.freeRspWait s.freeIdx } := rfl

theorem State.withResponse_eq_replied : s.withResponse r = s.replied s.chans r := rfl

theorem State.setChan_withResponse_eq_replied (k : Nat) (c : Channel) :
    (s.setChan k c).withResponse r = s.replied (s.chans.set k c) r := rfl

end

/-! ## Each command on a channel that exists -/

section
variable {s : State} {ch : ChanIdx} {c : Channel} (h : s.chans[ch.toNat]? = some c)
include h

theorem exec_nop : exec (.nop ch) s = .next (s.withResponse (.bare .ok)) := withChannel_some h _

theorem exec_resume : exec (.resume ch) s =
    .next ((s.setChan ch.toNat { c with state := .idle, length := 0 }).withResponse (.bare .ok)) :=
  withChannel_some h _

theorem exec_setblink (en : Bool) : exec (.setblink ch en) s =
    .next ((s.setChan ch.toNat { c with blinkEn := en }).withResponse (.bare .ok)) :=
  withChannel_some h _

theorem exec_rdstatus : exec (.rdstatus ch) s = .next (s.withResponse (.okData (c.statusWord s.cfg))) :=
  withChannel_some h _

theorem exec_rdlen : exec (.rdlen ch) s = .next (s.withResponse (.okData (c.length.setWidth 32))) :=
  withChannel_some h _

theorem exec_rdelapsed : exec (.rdelapsed ch) s = .next (s.withResponse (.okData c.elapsedTicks)) :=
  withChannel_some h _

theorem exec_rdraw_of_lt {idx : BitVec 8} (hi : idx.toNat < c.length.toNat) :
    exec (.rdraw ch idx) s = .next (s.withResponse (.okData (c.raw idx.toNat))) := by
  have he : c.entry? idx = some (c.raw idx.toNat) := if_neg (by omega)
  exact (withChannel_some h _).trans (by rw [he]; rfl)

theorem exec_rdraw_of_ge {idx : BitVec 8} (hi : c.length.toNat ≤ idx.toNat) :
    exec (.rdraw ch idx) s = .next (s.withResponse (.bare .badIndex)) := by
  have he : c.entry? idx = none := if_pos hi
  exact (withChannel_some h _).trans (by rw [he]; rfl)

theorem exec_decode : exec (.decode ch) s = .next (s.withResponse (decodeResponse s.cfg c)) := withChannel_some h _

end

/-! ## Any command, on a channel that exists: what it answers, and what it leaves in the channel -/

/-- The response of a command on channel `c` (41_host_commands.md R131 to R138, 42_frame_decode.md R150). -/
def replyOn (cfg : Config) (c : Channel) : Instr → Response
  | .nop _ => .bare .ok
  | .resume _ => .bare .ok
  | .decode _ => decodeResponse cfg c
  | .setblink _ _ => .bare .ok
  | .rdstatus _ => .okData (c.statusWord cfg)
  | .rdlen _ => .okData (c.length.setWidth 32)
  | .rdelapsed _ => .okData c.elapsedTicks
  | .rdraw _ idx => if idx.toNat < c.length.toNat then .okData (c.raw idx.toNat) else .bare .badIndex
  | .tick _ => .bare .ok

/-- Channel `c` after a command: RESUME and SETBLINK alone write it (20_memory.md R56). -/
def writtenOn (c : Channel) : Instr → Channel
  | .resume _ => { c with state := .idle, length := 0 }
  | .setblink _ en => { c with blinkEn := en }
  | .nop _ => c
  | .decode _ => c
  | .rdstatus _ => c
  | .rdlen _ => c
  | .rdelapsed _ => c
  | .rdraw _ _ => c
  | .tick _ => c

theorem State.setChan_self {s : State} {k : Nat} {c : Channel} (h : s.chans[k]? = some c) : s.setChan k c = s := by
  obtain ⟨hk, rfl⟩ := List.getElem?_eq_some_iff.mp h
  simp [State.setChan]

/-- A command is a function of its channel and the parameters. -/
theorem exec_command_on {i : Instr} {ch : ChanIdx} (hi : i.channel? = some ch) {s : State} {c : Channel}
    (h : s.chans[ch.toNat]? = some c) :
    exec i s = .next ((s.setChan ch.toNat (writtenOn c i)).withResponse (replyOn s.cfg c i)) := by
  cases i with
  | tick irIn => cases hi
  | resume k => cases hi; exact exec_resume h
  | setblink k en => cases hi; exact exec_setblink h en
  | nop k => cases hi; rw [writtenOn, State.setChan_self h]; exact exec_nop h
  | decode k => cases hi; rw [writtenOn, State.setChan_self h]; exact exec_decode h
  | rdstatus k => cases hi; rw [writtenOn, State.setChan_self h]; exact exec_rdstatus h
  | rdlen k => cases hi; rw [writtenOn, State.setChan_self h]; exact exec_rdlen h
  | rdelapsed k => cases hi; rw [writtenOn, State.setChan_self h]; exact exec_rdelapsed h
  | rdraw k idx =>
    cases hi
    rw [writtenOn, State.setChan_self h, replyOn]
    split
    · exact exec_rdraw_of_lt h (by assumption)
    · exact exec_rdraw_of_ge h (by omega)

/-! ## Any command -/

/-- What a command leaves in the list of channels, with its response: the list as it was, or, for RESUME and SETBLINK
on a channel that exists, that one channel written. -/
def CommandEffect (i : Instr) (ch : ChanIdx) (s : State) (chs : List Channel) : Prop :=
  chs = s.chans ∨
  ∃ c d, s.chans[ch.toNat]? = some c ∧ chs = s.chans.set ch.toNat d ∧
    ((i = .resume ch ∧ d = { c with state := .idle, length := 0 }) ∨
      ∃ en, i = .setblink ch en ∧ d = { c with blinkEn := en })

/-- A command on a channel that does not exist (60_exceptions.md R203). -/
theorem exec_command_missing {i : Instr} {ch : ChanIdx} (hi : i.channel? = some ch) {s : State}
    (h : s.chans[ch.toNat]? = none) : exec i s = .next (s.withResponse (.bare .badChannel)) := by
  cases i <;> cases hi <;> exact withChannel_none h _

/-- Every command answers a next state: one response, and at most its own channel written (41_host_commands.md
R130). -/
theorem exec_command {i : Instr} {ch : ChanIdx} (hi : i.channel? = some ch) (s : State) :
    ∃ chs r, exec i s = .next (s.replied chs r) ∧ CommandEffect i ch s chs := by
  cases h : s.chans[ch.toNat]? with
  | none => exact ⟨_, _, exec_command_missing hi h, .inl rfl⟩
  | some c =>
    refine ⟨_, _, exec_command_on hi h, ?_⟩
    have read : writtenOn c i = c → CommandEffect i ch s (s.chans.set ch.toNat (writtenOn c i)) := fun hw =>
      .inl (by rw [hw]; exact congrArg State.chans (State.setChan_self h))
    cases i with
    | resume k => cases hi; exact .inr ⟨c, _, h, rfl, .inl ⟨rfl, rfl⟩⟩
    | setblink k en => cases hi; exact .inr ⟨c, _, h, rfl, .inr ⟨en, rfl, rfl⟩⟩
    | _ => exact read rfl

/-- The number of channels after a command. -/
theorem CommandEffect.length_eq {i : Instr} {ch : ChanIdx} {s : State} {chs : List Channel}
    (h : CommandEffect i ch s chs) : chs.length = s.chans.length := by
  rcases h with rfl | ⟨c, d, -, rfl, -⟩
  · rfl
  · simp

end Sys2Proof.Machine
end

