-- ==== Sys2Proof/Laws/Tick.lean ====
section
/-! SUPPORT. TICK on one channel, row by row (40_tick_sampler.md R105 to R118), and on the list of channels. -/

namespace Sys2Proof.Machine

section
variable (cfg : Config) (smp : Sample) (c : Channel)

/-- The channel when the per-state logic is reached: blinked and counted (40_tick_sampler.md R104), before the guard. -/
def Channel.counted (cfg : Config) (smp : Sample) (c : Channel) : Channel := (c.blink smp).count cfg

@[simp] theorem Channel.counted_state : (c.counted cfg smp).state = c.state := by
  simp only [Channel.counted, Channel.count, Channel.blink]; split <;> rfl
@[simp] theorem Channel.counted_elapsedTicks : (c.counted cfg smp).elapsedTicks = inc cfg c.elapsedTicks := by
  simp only [Channel.counted, Channel.count, Channel.blink]; split <;> rfl
@[simp] theorem Channel.counted_length : (c.counted cfg smp).length = c.length := by
  simp only [Channel.counted, Channel.count, Channel.blink]; split <;> rfl
@[simp] theorem Channel.counted_rawBuffer : (c.counted cfg smp).rawBuffer = c.rawBuffer := by
  simp only [Channel.counted, Channel.count, Channel.blink]; split <;> rfl
@[simp] theorem Channel.counted_blinkEn : (c.counted cfg smp).blinkEn = c.blinkEn := by
  simp only [Channel.counted, Channel.count, Channel.blink]; split <;> rfl
/-- Blink mirroring (40_tick_sampler.md R118). -/
@[simp] theorem Channel.counted_ledQ :
    (c.counted cfg smp).ledQ = if c.blinkEn then decide (smp = .mark) else c.ledQ := by
  simp only [Channel.counted, Channel.count, Channel.blink]; split <;> rfl

theorem tickStep_eq : tickStep cfg smp c = ((c.counted cfg smp).guardOverflow cfg).stepState cfg smp := rfl

/-- A full buffer, or STOPPED already: the STOPPED row runs (R105, R114, R115). -/
theorem tickStep_of_stopped (h : cfg.capacity ≤ c.length.toNat ∨ c.state = .stopped) :
    tickStep cfg smp c = Channel.stepStopped smp { c.counted cfg smp with state := .stopped } := by
  have hg : (c.counted cfg smp).guardOverflow cfg = { c.counted cfg smp with state := .stopped } := by
    unfold Channel.guardOverflow
    split
    · rfl
    · next hf =>
      have hs : (c.counted cfg smp).state = .stopped := by
        rw [Channel.counted_state]
        exact h.resolve_left (by simpa using hf)
      rw [← hs]
  rw [tickStep_eq, hg]
  rfl

variable (hf : c.length.toNat < cfg.capacity)
include hf

theorem guardOverflow_of_lt : (c.counted cfg smp).guardOverflow cfg = c.counted cfg smp := by
  simp [Channel.guardOverflow, hf]

/-- IDLE (R106 to R108). -/
theorem tickStep_of_idle (h : c.state = .idle) :
    tickStep cfg smp c = (c.counted cfg smp).stepIdle cfg smp := by
  rw [tickStep_eq, guardOverflow_of_lt cfg smp c hf]; simp [Channel.stepState, h]

/-- READING_MARK (R109, R110). -/
theorem tickStep_of_readingMark (h : c.state = .readingMark) :
    tickStep cfg smp c = (c.counted cfg smp).stepReadingMark smp := by
  rw [tickStep_eq, guardOverflow_of_lt cfg smp c hf]; simp [Channel.stepState, h]

/-- READING_SPACE (R111 to R113). -/
theorem tickStep_of_readingSpace (h : c.state = .readingSpace) :
    tickStep cfg smp c = (c.counted cfg smp).stepReadingSpace cfg smp := by
  rw [tickStep_eq, guardOverflow_of_lt cfg smp c hf]; simp [Channel.stepState, h]

end

/-- Everything a TICK does to a channel: it is the counted channel with one of five endings (40_tick_sampler.md R120). -/
theorem tickStep_cases (cfg : Config) (smp : Sample) (c : Channel) :
    let e := c.counted cfg smp
    let d := tickStep cfg smp c
    (d = { e with state := .stopped } ∧
      (cfg.capacity ≤ c.length.toNat ∨ c.state = .stopped ∨
        (c.state = .readingSpace ∧ smp = .space ∧ cfg.gapTicks < e.elapsedTicks.toNat))) ∨
    (d = { e with state := .stopped, elapsedTicks := 0 } ∧ (cfg.capacity ≤ c.length.toNat ∨ c.state = .stopped)) ∨
    (d = e ∧ c.length.toNat < cfg.capacity ∧ c.state ≠ .stopped) ∨
    (d = e.clearElapsed ∧ c.length.toNat < cfg.capacity ∧ c.state = .idle ∧ smp = .mark ∧
      e.elapsedTicks.toNat < cfg.gapTicks) ∨
    (d = e.startFrame ∧ c.length.toNat < cfg.capacity ∧ c.state = .idle ∧ smp = .mark ∧
      cfg.gapTicks ≤ e.elapsedTicks.toNat) ∨
    (d = e.record .readingSpace ∧ c.length.toNat < cfg.capacity ∧ c.state = .readingMark ∧ smp = .space) ∨
    (d = e.record .readingMark ∧ c.length.toNat < cfg.capacity ∧ c.state = .readingSpace ∧ smp = .mark) := by
  intro e d
  by_cases hf : cfg.capacity ≤ c.length.toNat
  · have hd := tickStep_of_stopped cfg smp c (.inl hf)
    cases smp with
    | mark => exact .inr (.inl ⟨hd, .inl hf⟩)
    | space =>
      exact .inl ⟨hd, .inl hf⟩
  · have hlt : c.length.toNat < cfg.capacity := by omega
    cases hs : c.state with
    | stopped =>
      have hd := tickStep_of_stopped cfg smp c (.inr hs)
      cases smp with
      | mark => exact .inr (.inl ⟨hd, .inr rfl⟩)
      | space =>
        exact .inl ⟨hd, .inr (.inl rfl)⟩
    | idle =>
      have hd := tickStep_of_idle cfg smp c hlt hs
      cases smp with
      | space => exact .inr (.inr (.inl ⟨hd, hlt, nofun⟩))
      | mark =>
        by_cases hg : e.elapsedTicks.toNat < cfg.gapTicks
        · exact .inr (.inr (.inr (.inl ⟨hd.trans (by simp only [Channel.stepIdle]; rw [if_pos hg]), hlt, rfl, rfl, hg⟩)))
        · exact .inr (.inr (.inr (.inr (.inl
            ⟨hd.trans (by simp only [Channel.stepIdle]; rw [if_neg hg]), hlt, rfl, rfl, by omega⟩))))
    | readingMark =>
      have hd := tickStep_of_readingMark cfg smp c hlt hs
      cases smp with
      | mark => exact .inr (.inr (.inl ⟨hd, hlt, nofun⟩))
      | space => exact .inr (.inr (.inr (.inr (.inr (.inl ⟨hd, hlt, rfl, rfl⟩)))))
    | readingSpace =>
      have hd := tickStep_of_readingSpace cfg smp c hlt hs
      cases smp with
      | mark => exact .inr (.inr (.inr (.inr (.inr (.inr ⟨hd, hlt, rfl, rfl⟩)))))
      | space =>
        by_cases hg : cfg.gapTicks < e.elapsedTicks.toNat
        · refine .inl ⟨hd.trans ?_, .inr (.inr ⟨rfl, rfl, hg⟩)⟩
          simp only [Channel.stepReadingSpace]; rw [if_pos hg]
        · refine .inr (.inr (.inl ⟨hd.trans ?_, hlt, nofun⟩))
          simp only [Channel.stepReadingSpace]; rw [if_neg hg]

@[simp] theorem tickStep_blinkEn (cfg : Config) (smp : Sample) (c : Channel) :
    (tickStep cfg smp c).blinkEn = c.blinkEn := by
  rcases tickStep_cases cfg smp c with h | h | h | h | h | h | h <;> rw [h.1] <;> simp

@[simp] theorem tickStep_ledQ (cfg : Config) (smp : Sample) (c : Channel) :
    (tickStep cfg smp c).ledQ = if c.blinkEn then decide (smp = .mark) else c.ledQ := by
  rcases tickStep_cases cfg smp c with h | h | h | h | h | h | h <;> rw [h.1] <;> simp

/-! ## TICK on the list of channels -/

/-- The state a TICK leaves. -/
def State.ticked (s : State) (irIn : Levels) : State :=
  { s with chans := s.chans.mapIdx fun k c => tickStep s.cfg (sampleOf s.cfg (levelOf irIn k)) c }

section
variable (s : State) (irIn : Levels)

theorem exec_tick : exec (.tick irIn) s = .next (s.ticked irIn) := rfl

@[simp] theorem State.ticked_cfg : (s.ticked irIn).cfg = s.cfg := rfl
@[simp] theorem State.ticked_inputs : (s.ticked irIn).inputs = s.inputs := rfl
@[simp] theorem State.ticked_freeIdx : (s.ticked irIn).freeIdx = s.freeIdx := rfl
@[simp] theorem State.ticked_outstanding : (s.ticked irIn).outstanding = s.outstanding := rfl
@[simp] theorem State.ticked_nch : (s.ticked irIn).nch = s.nch := by simp [State.ticked, State.nch]

@[simp] theorem State.ticked_getElem? (k : Nat) : (s.ticked irIn).chans[k]? =
    s.chans[k]?.map (tickStep s.cfg (sampleOf s.cfg (levelOf irIn k))) := by
  simp [State.ticked]

theorem State.ticked_of_chan {k : Nat} {c : Channel} (h : s.chans[k]? = some c) :
    (s.ticked irIn).chans[k]? = some (tickStep s.cfg (sampleOf s.cfg (levelOf irIn k)) c) := by
  simp [h]

/-- Every channel after a TICK is the step of a channel before it. -/
theorem State.mem_ticked {d : Channel} (h : d ∈ (s.ticked irIn).chans) :
    ∃ smp, ∃ c ∈ s.chans, d = tickStep s.cfg smp c := by
  obtain ⟨k, hk⟩ := List.mem_iff_getElem?.mp h
  rw [State.ticked_getElem?] at hk
  obtain ⟨c, hc, hd⟩ := Option.map_eq_some_iff.mp hk
  exact ⟨_, c, List.mem_of_getElem? hc, hd.symm⟩

end

theorem sampleOf_of_eq {cfg : Config} {level : Bool} (h : level = cfg.markLevel) : sampleOf cfg level = .mark :=
  if_pos h

theorem sampleOf_of_ne {cfg : Config} {level : Bool} (h : level ≠ cfg.markLevel) : sampleOf cfg level = .space :=
  if_neg h

end Sys2Proof.Machine
end

