-- ==== Sys2Proof/Laws/Cycle.lean ====
section
/-! SUPPORT. Everything one cycle can do, said once (70_reset_and_hazards.md R230, R240). -/

namespace Sys2Proof.Machine

/-- A configuration outside the legal values stops every step. -/
theorem step_of_illegal {s : State} (h : s.legal = false) : step s = .refused .illegalConfiguration := by
  simp [step, cycle, h]

/-- A reset cycle. -/
theorem step_of_reset {s : State} (h : s.legal = true) (hr : s.pins.rst = true) : step s = .next s.resetCycle := by
  simp [step, cycle, h, hr]

/-- Any other cycle: the command, then the TICK. -/
theorem step_of_run {s : State} (h : s.legal = true) (hr : s.pins.rst = false) :
    step s = andThen (commandPhase exec s.pins s.cmdReady s.beginCycle) (tickPhase exec s.pins) := by
  simp [step, cycle, h, hr]

/-! ## The command phase -/

theorem decodeCmd_channel {w : CmdWord} {i : Instr} (h : decodeCmd w = .ok i) : i.channel? = some (chOf w) := by
  unfold decodeCmd at h
  split at h <;> (try unfold noOperand at h) <;> (try unfold enableOperand at h) <;> (try split at h) <;>
    first | (cases h; rfl) | cases h

theorem commandPhase_of_not_accepted {p : Pins} {ready : Bool} {s : State} (h : p.cmdValid = false ∨ ready = false) :
    commandPhase exec p ready s = .next s := by
  rcases h with h | h <;> simp [commandPhase, h]

theorem commandPhase_of_accepted {p : Pins} {s : State} (h : p.cmdValid = true) :
    commandPhase exec p true s = acceptWord exec p.cmd s := by
  simp [commandPhase, h]

theorem acceptWord_of_ok {w : CmdWord} {i : Instr} (h : decodeCmd w = .ok i) (s : State) :
    acceptWord exec w s = exec i s := by
  simp [acceptWord, h]

theorem acceptWord_of_error {w : CmdWord} {e : DecodeError} (h : decodeCmd w = .error e) (s : State) :
    acceptWord exec w s = .next (s.withResponse (.bare .illegal)) := by
  simp [acceptWord, h, answerIllegal]

/-- What an accepted word leaves in the channels: nothing for an ILLEGAL word, its command's effect otherwise. -/
def WordEffect (w : CmdWord) (s : State) (chs : List Channel) : Prop :=
  (∃ e, decodeCmd w = .error e ∧ chs = s.chans) ∨
  ∃ i, decodeCmd w = .ok i ∧ CommandEffect i (chOf w) s chs

/-- Every accepted word gets one response (30_encoding.md R80). -/
theorem acceptWord_cases (w : CmdWord) (s : State) :
    ∃ chs r, acceptWord exec w s = .next (s.replied chs r) ∧ WordEffect w s chs := by
  cases h : decodeCmd w with
  | error e => exact ⟨_, _, acceptWord_of_error h s, .inl ⟨e, h, rfl⟩⟩
  | ok i =>
    obtain ⟨chs, r, he, hc⟩ := exec_command (decodeCmd_channel h) s
    exact ⟨chs, r, (acceptWord_of_ok h s).trans he, .inr ⟨i, h, hc⟩⟩

/-- The command phase: no command accepted and nothing changed, or one accepted and answered. -/
theorem commandPhase_cases (p : Pins) (ready : Bool) (s : State) :
    ((p.cmdValid = false ∨ ready = false) ∧ commandPhase exec p ready s = .next s) ∨
    (p.cmdValid = true ∧ ready = true ∧ ∃ chs r, commandPhase exec p ready s = .next (s.replied chs r) ∧
      WordEffect p.cmd s chs) := by
  by_cases h : p.cmdValid = true ∧ ready = true
  · obtain ⟨hv, rfl⟩ := h
    rw [commandPhase_of_accepted hv]
    exact .inr ⟨hv, rfl, acceptWord_cases p.cmd s⟩
  · have h' : p.cmdValid = false ∨ ready = false := by
      cases hv : p.cmdValid <;> cases hb : ready <;> simp_all
    exact .inl ⟨h', commandPhase_of_not_accepted h'⟩

theorem tickPhase_of_tick {p : Pins} (h : p.tick = true) (s : State) :
    tickPhase exec p s = .next (s.ticked p.irIn) := by
  rw [tickPhase, if_pos h, exec_tick]

theorem tickPhase_of_no_tick {p : Pins} (h : p.tick = false) (s : State) : tickPhase exec p s = .next s := by
  rw [tickPhase, if_neg (by simp [h])]

/-- The state the TICK of a cycle leaves. -/
def State.afterTick (s : State) (p : Pins) : State := if p.tick then s.ticked p.irIn else s

theorem tickPhase_eq (p : Pins) (s : State) : tickPhase exec p s = .next (s.afterTick p) := by
  unfold State.afterTick
  cases h : p.tick
  · simpa using tickPhase_of_no_tick h s
  · simpa using tickPhase_of_tick h s

section
variable (s : State) (p : Pins)

@[simp] theorem State.afterTick_cfg : (s.afterTick p).cfg = s.cfg := by unfold State.afterTick; split <;> rfl
@[simp] theorem State.afterTick_inputs : (s.afterTick p).inputs = s.inputs := by
  unfold State.afterTick; split <;> rfl
@[simp] theorem State.afterTick_freeIdx : (s.afterTick p).freeIdx = s.freeIdx := by
  unfold State.afterTick; split <;> rfl
@[simp] theorem State.afterTick_outstanding : (s.afterTick p).outstanding = s.outstanding := by
  unfold State.afterTick; split <;> rfl
@[simp] theorem State.afterTick_nch : (s.afterTick p).nch = s.nch := by
  unfold State.afterTick; split <;> simp

end

/-- Everything a step of a legal configuration does: a reset cycle; or the state at the cycle's start, with or without
an accepted command's reply, after the cycle's TICK if it has one. -/
theorem step_cases {s : State} (h : s.legal = true) :
    (s.pins.rst = true ∧ step s = .next s.resetCycle) ∨
    (s.pins.rst = false ∧ (s.pins.cmdValid = false ∨ s.cmdReady = false) ∧
      step s = .next (s.beginCycle.afterTick s.pins)) ∨
    (s.pins.rst = false ∧ s.pins.cmdValid = true ∧ s.cmdReady = true ∧
      ∃ chs r, step s = .next ((s.beginCycle.replied chs r).afterTick s.pins) ∧
        WordEffect s.pins.cmd s.beginCycle chs) := by
  cases hr : s.pins.rst with
  | true => exact .inl ⟨rfl, step_of_reset h hr⟩
  | false =>
    rcases commandPhase_cases s.pins s.cmdReady s.beginCycle with ⟨hn, hc⟩ | ⟨hv, hb, chs, r, hc, he⟩
    · refine .inr (.inl ⟨rfl, hn, ?_⟩)
      rw [step_of_run h hr, hc, andThen_next, tickPhase_eq]
    · refine .inr (.inr ⟨rfl, hv, hb, chs, r, ?_, he⟩)
      rw [step_of_run h hr, hc, andThen_next, tickPhase_eq]

theorem WordEffect.length_eq {w : CmdWord} {s : State} {chs : List Channel} (h : WordEffect w s chs) :
    chs.length = s.chans.length := by
  rcases h with ⟨e, -, rfl⟩ | ⟨i, -, hc⟩
  · rfl
  · exact hc.length_eq

/-- A step of a machine that refuses gives no next state. -/
theorem legal_of_step_next {s t : State} (h : step s = .next t) : s.legal = true := by
  cases hl : s.legal with
  | true => rfl
  | false => rw [step_of_illegal hl] at h; cases h

end Sys2Proof.Machine
end

