-- ==== Sys2Proof/Laws/Decode.lean ====
section
/-! SUPPORT. The fields of a command word as numbers, and the fields of a word that is built from them. -/

namespace Sys2Proof

theorem opOf_toNat (w : CmdWord) : (opOf w).toNat = w.toNat / 2 ^ 12 := by
  have := w.isLt
  simp [opOf, Nat.shiftRight_eq_div_pow]
  omega

theorem immOf_toNat (w : CmdWord) : (immOf w).toNat = w.toNat % 2 ^ 8 := by
  simp [immOf]

theorem immOf_high_toNat (w : CmdWord) : ((immOf w).extractLsb' 1 7).toNat = w.toNat % 2 ^ 8 / 2 := by
  simp [immOf, Nat.shiftRight_eq_div_pow]
  omega

section
variable (op : BitVec 4) (ch : ChanIdx) (imm : BitVec 8)

@[simp] theorem opOf_cmdWord : opOf (cmdWord op ch imm) = op := by
  apply BitVec.eq_of_getLsbD_eq
  intro i hi
  have h1 : ¬ 12 + i < 8 := by omega
  have h2 : ¬ 12 + i - 8 < 4 := by omega
  have h3 : 12 + i - 8 - 4 = i := by omega
  simp only [opOf, cmdWord, BitVec.getLsbD_extractLsb', BitVec.getLsbD_append, h1, h2, h3]
  simp_all

@[simp] theorem chOf_cmdWord : chOf (cmdWord op ch imm) = ch := by
  apply BitVec.eq_of_getLsbD_eq
  intro i hi
  simp only [chOf, cmdWord, BitVec.getLsbD_extractLsb', BitVec.getLsbD_append]
  simp_all

@[simp] theorem immOf_cmdWord : immOf (cmdWord op ch imm) = imm := by
  apply BitVec.eq_of_getLsbD_eq
  intro i hi
  simp only [immOf, cmdWord, BitVec.getLsbD_extractLsb', BitVec.getLsbD_append]
  simp_all

end

end Sys2Proof
end

