-- ==== Sys2Proof/Laws/FrameDecode.lean ====
section
/-! SUPPORT. The grammar's loop and the hash's loop: what a match implies, that the fuel is enough, and what they
read. -/

namespace Sys2Proof.Machine

section
variable (cfg : Config) (c : Channel)

theorem grammarLoop_succ (fuel off : Nat) (acc : DataWord) (b : Nat) :
    grammarLoop cfg c (fuel + 1) off acc b =
      if off + 1 < c.length.toNat ∧ durationMatches cfg (c.raw off) cfg.hdrSpace = true then
        match bitOfMark cfg (c.raw (off + 1)) with
        | none => .failed
        | some bit => grammarLoop cfg c fuel (off + 2) (shiftIn acc bit) (b + 1)
      else if b < minBits then .failed
      else .matched acc b := rfl

/-- A pair is consumed (42_frame_decode.md R161). -/
theorem grammarLoop_of_pair {fuel off : Nat} {acc : DataWord} {b : Nat} {bit : Bool} (ho : off + 1 < c.length.toNat)
    (hs : durationMatches cfg (c.raw off) cfg.hdrSpace = true) (hm : bitOfMark cfg (c.raw (off + 1)) = some bit) :
    grammarLoop cfg c (fuel + 1) off acc b = grammarLoop cfg c fuel (off + 2) (shiftIn acc bit) (b + 1) := by
  rw [grammarLoop_succ, if_pos ⟨ho, hs⟩, hm]

/-- A mark of neither duration fails (42_frame_decode.md R161). -/
theorem grammarLoop_of_bad_mark {fuel off : Nat} {acc : DataWord} {b : Nat} (ho : off + 1 < c.length.toNat)
    (hs : durationMatches cfg (c.raw off) cfg.hdrSpace = true) (hm : bitOfMark cfg (c.raw (off + 1)) = none) :
    grammarLoop cfg c (fuel + 1) off acc b = .failed := by
  rw [grammarLoop_succ, if_pos ⟨ho, hs⟩, hm]

/-- The loop ends (42_frame_decode.md R160, R162), and the count is checked (R163). -/
theorem grammarLoop_of_end {fuel off : Nat} {acc : DataWord} {b : Nat}
    (h : c.length.toNat ≤ off + 1 ∨ durationMatches cfg (c.raw off) cfg.hdrSpace = false) :
    grammarLoop cfg c (fuel + 1) off acc b = if b < minBits then .failed else .matched acc b := by
  rw [grammarLoop_succ, if_neg]
  rintro ⟨ho, hs⟩
  rcases h with h | h
  · omega
  · simp [h] at hs

/-- A match has at least MIN_BITS bits, and each bit after the `b` ones so far took two entries below `length`. -/
theorem grammarLoop_matched {fuel : Nat} : ∀ {off : Nat} {acc : DataWord} {b : Nat} {v : DataWord} {b' : Nat},
    grammarLoop cfg c fuel off acc b = .matched v b' →
      minBits ≤ b' ∧ b ≤ b' ∧ (b < b' → off + 2 * (b' - b) ≤ c.length.toNat) := by
  induction fuel with
  | zero => intro off acc b v b' h; cases h
  | succ fuel ih =>
    intro off acc b v b' h
    rw [grammarLoop_succ] at h
    split at h
    · next ho =>
      split at h
      · cases h
      · obtain ⟨h1, h2, h3⟩ := ih h
        refine ⟨h1, by omega, fun _ => ?_⟩
        by_cases hb : b + 1 < b'
        · have := h3 hb; omega
        · have := ho.1; omega
    · split at h
      · cases h
      · cases h
        exact ⟨by omega, le_refl _, fun hlt => absurd hlt (lt_irrefl _)⟩

/-- More fuel than iterations changes nothing. -/
theorem grammarLoop_fuel {fuel : Nat} : ∀ {fuel' off : Nat} {acc : DataWord} {b : Nat},
    c.length.toNat + 1 ≤ off + 2 * fuel → c.length.toNat + 1 ≤ off + 2 * fuel' → 0 < fuel → 0 < fuel' →
      grammarLoop cfg c fuel off acc b = grammarLoop cfg c fuel' off acc b := by
  induction fuel with
  | zero => intro fuel' off acc b _ _ h; exact absurd h (lt_irrefl 0)
  | succ fuel ih =>
    intro fuel' off acc b h h' _ hp'
    cases fuel' with
    | zero => exact absurd hp' (lt_irrefl 0)
    | succ fuel' =>
      rw [grammarLoop_succ, grammarLoop_succ]
      by_cases ho : off + 1 < c.length.toNat ∧ durationMatches cfg (c.raw off) cfg.hdrSpace = true
      · rw [if_pos ho, if_pos ho]
        cases bitOfMark cfg (c.raw (off + 1)) with
        | none => rfl
        | some bit => exact ih (by omega) (by omega) (by omega) (by omega)
      · rw [if_neg ho, if_neg ho]

/-- A matched grammar went through its loop. -/
theorem grammar_matched {v : DataWord} {b : Nat} (h : grammar cfg c = .matched v b) :
    2 * cfg.nBits + 2 ≤ c.length.toNat ∧ durationMatches cfg (c.raw 1) cfg.hdrMark = true ∧
      grammarLoop cfg c c.length.toNat 2 0 0 = .matched v b := by
  unfold grammar at h
  split at h
  · cases h
  · split at h
    · exact ⟨by omega, by assumption, h⟩
    · cases h

theorem grammar_of_header (hl : 2 * cfg.nBits + 2 ≤ c.length.toNat)
    (hh : durationMatches cfg (c.raw 1) cfg.hdrMark = true) :
    grammar cfg c = grammarLoop cfg c c.length.toNat 2 0 0 := by
  rw [grammar, if_neg (by omega), if_pos hh]

theorem bitOfMark_one {m : Ticks} (h : durationMatches cfg m cfg.oneMark = true) : bitOfMark cfg m = some true :=
  if_pos h

theorem bitOfMark_zero {m : Ticks} (h1 : durationMatches cfg m cfg.oneMark = false)
    (h0 : durationMatches cfg m cfg.zeroMark = true) : bitOfMark cfg m = some false := by
  rw [bitOfMark, if_neg (by simp [h1]), if_pos h0]

theorem bitOfMark_none {m : Ticks} (h1 : durationMatches cfg m cfg.oneMark = false)
    (h0 : durationMatches cfg m cfg.zeroMark = false) : bitOfMark cfg m = none := by
  rw [bitOfMark, if_neg (by simp [h1]), if_neg (by simp [h0])]

/-! ## The hash -/

theorem hashLoop_succ (fuel i : Nat) (h : DataWord) :
    hashLoop cfg c (fuel + 1) i h =
      if i + 2 < c.length.toNat then
        hashLoop cfg c fuel (i + 1) (hashUpdate cfg h (cmpDurations cfg (c.raw i) (c.raw (i + 2))))
      else h := rfl

/-- The loop reads no entry at or above `length`. -/
theorem hashLoop_of_end {fuel i : Nat} {h : DataWord} (hi : c.length.toNat ≤ i + 2) : hashLoop cfg c fuel i h = h := by
  cases fuel with
  | zero => rfl
  | succ fuel => rw [hashLoop_succ, if_neg (by omega)]

end

/-- The value of a 32-bit accumulator after a bit is shifted in (42_frame_decode.md R164). -/
theorem shiftIn_toNat (acc : DataWord) (bit : Bool) :
    (shiftIn acc bit).toNat = (2 * acc.toNat + bit.toNat) % 2 ^ 32 := by
  have h : shiftIn acc bit = acc <<< 1 + (if bit then 1 else 0) := by
    cases bit
    · simp [shiftIn]
    · have hd : (acc <<< 1) &&& 1#32 = 0#32 := by ext i hi; simp; intro h1 h2; omega
      simp only [shiftIn, if_true]
      exact (BitVec.add_eq_or_of_and_eq_zero _ _ hd).symm
  rw [h, BitVec.toNat_add, BitVec.toNat_shiftLeft]
  cases bit <;> simp [Nat.shiftLeft_eq] <;> omega

end Sys2Proof.Machine
end

