-- ==== Sys2Proof/Laws/PerInstr.lean ====
section
/-! SUPPORT. Facts about every instruction as syntax, one lemma per constructor. -/

namespace Sys2Proof.Laws.EncodedFields

/-- The opcode of a command (30_encoding.md R77). -/
def opcode? : Instr → Option (BitVec 4)
  | .nop _ => some 0
  | .resume _ => some 1
  | .decode _ => some 2
  | .setblink _ _ => some 3
  | .rdstatus _ => some 4
  | .rdlen _ => some 5
  | .rdelapsed _ => some 6
  | .rdraw _ _ => some 7
  | .tick _ => none

/-- The fields of an instruction's encoding are the table's: a command word has its opcode and its channel
(30_encoding.md R76, R77); an event word has its strobe above its levels (R72). -/
def Statement (i : Instr) : Prop :=
  ∀ nch : Nat, nch ≤ 16 → i.wellFormed nch = true →
    (∃ w op ch, encode nch i = .cmd w ∧ opcode? i = some op ∧ i.channel? = some ch ∧ opOf w = op ∧ chOf w = ch) ∨
    (∃ w, encode nch i = .evt w ∧ opcode? i = none ∧ i.channel? = none ∧ w.toNat / 2 ^ nch = 1)

theorem nop (ch : ChanIdx) : Statement (.nop ch) :=
  fun _ _ _ => .inl ⟨_, _, _, rfl, rfl, rfl, by simp, by simp⟩

theorem resume (ch : ChanIdx) : Statement (.resume ch) :=
  fun _ _ _ => .inl ⟨_, _, _, rfl, rfl, rfl, by simp, by simp⟩

theorem decode (ch : ChanIdx) : Statement (.decode ch) :=
  fun _ _ _ => .inl ⟨_, _, _, rfl, rfl, rfl, by simp, by simp⟩

theorem setblink (ch : ChanIdx) (en : Bool) : Statement (.setblink ch en) :=
  fun _ _ _ => .inl ⟨_, _, _, rfl, rfl, rfl, by simp, by simp⟩

theorem rdstatus (ch : ChanIdx) : Statement (.rdstatus ch) :=
  fun _ _ _ => .inl ⟨_, _, _, rfl, rfl, rfl, by simp, by simp⟩

theorem rdlen (ch : ChanIdx) : Statement (.rdlen ch) :=
  fun _ _ _ => .inl ⟨_, _, _, rfl, rfl, rfl, by simp, by simp⟩

theorem rdelapsed (ch : ChanIdx) : Statement (.rdelapsed ch) :=
  fun _ _ _ => .inl ⟨_, _, _, rfl, rfl, rfl, by simp, by simp⟩

theorem rdraw (ch : ChanIdx) (idx : BitVec 8) : Statement (.rdraw ch idx) :=
  fun _ _ _ => .inl ⟨_, _, _, rfl, rfl, rfl, by simp, by simp⟩

theorem tick (irIn : Levels) : Statement (.tick irIn) := by
  intro nch hn hw
  have hlt : irIn.toNat < 2 ^ nch := by simpa [Instr.wellFormed] using hw
  have hp : 2 ^ nch ≤ 2 ^ 16 := Nat.pow_le_pow_right (by omega) hn
  refine .inr ⟨_, rfl, rfl, rfl, ?_⟩
  rw [evtWord, BitVec.toNat_ofNat, Nat.mod_eq_of_lt (by omega)]
  exact Nat.div_eq_of_lt_le (by omega) (by omega)

end Sys2Proof.Laws.EncodedFields
end

