-- ==== Sys2Proof/Laws/Run.lean ====
section
/-! SUPPORT. Runs of several cycles: one step at a time, and an invariant carried along. -/

namespace Sys2Proof.Machine

theorem run_zero (s : State) : Host.Core.run core 0 s = .next s := rfl

theorem run_succ_of_step {s u : State} (h : step s = .next u) (k : Nat) :
    Host.Core.run core (k + 1) s = Host.Core.run core k u := by
  have hc : core.step s = .next u := h
  simp only [Host.Core.run, hc]

/-- A property that every step of a legal configuration gives and keeps holds after any number of cycles, and no cycle
stops. -/
theorem run_induction {P : State → Prop} (hstep : ∀ s, P s → ∃ t, step s = .next t ∧ P t) (k : Nat) :
    ∀ s, P s → ∃ t, Host.Core.run core k s = .next t ∧ P t := by
  induction k with
  | zero => exact fun s hs => ⟨s, rfl, hs⟩
  | succ k ih =>
    intro s hs
    obtain ⟨u, hu, hp⟩ := hstep s hs
    rw [run_succ_of_step hu]
    exact ih u hp

/-- With no reset among the listed cycles, the next cycle is none either. -/
theorem pins_rst_false {s : State} (h : ∀ p ∈ s.inputs, p.rst = false) : s.pins.rst = false := by
  rcases s.pins_mem_or_idle with hm | hm
  · exact h _ hm
  · rw [hm]; rfl

end Sys2Proof.Machine
end

