-- ==== Sys2Proof/Tests/Slice0.lean ====
section
/-! SUPPORT. Tests of single steps with expected results from spec/95_test_vectors.md (each cited by its id) or written
out from the spec's encodings, and, for every statement with hypotheses, a witness that meets all of them together. -/

namespace Sys2Proof.Tests

open Sys2Proof.Machine

/-! ## Helpers -/

/-- A channel with these fields, its buffer filled up with zeros, its indicator off. -/
def chanOf (cfg : Config) (st : ChState) (el len : Nat) (raw : List Nat) : Channel :=
  { state := st, elapsedTicks := BitVec.ofNat 32 el, length := BitVec.ofNat 9 len,
    rawBuffer := raw.map (BitVec.ofNat 32) ++ List.replicate (cfg.capacity - raw.length) 0,
    blinkEn := false, ledQ := false }

/-- The block with these channels, no command outstanding and no input cycle listed. -/
def block (cfg : Config) (chs : List Channel) : State :=
  { cfg := cfg, chans := chs, outstanding := none, inputs := [], freeIdx := 0 }

/-- A next state that passes `p`. -/
def next? (o : Host.Outcome State Fault Refusal) (p : State → Bool) : Bool :=
  match o with
  | .next s => p s
  | _ => false

/-- The response outstanding after a command. -/
def answer (s : State) : Option (Status × Tag × Nat × Nat) :=
  s.outstanding.map fun p => (p.rsp.status, p.rsp.tag, p.rsp.bits.toNat, p.rsp.data.toNat)

/-- Channel 0's state, counter, length, first entries up to `length`, and indicator. -/
def chan0 (s : State) : Option (ChState × Nat × Nat × List Nat × Bool) :=
  s.chans[0]?.map fun c =>
    (c.state, c.elapsedTicks.toNat, c.length.toNat, (c.rawBuffer.take c.length.toNat).map BitVec.toNat, c.ledQ)

/-- The command answers this and leaves every channel as it was. -/
def answers (i : Instr) (s : State) (a : Status × Tag × Nat × Nat) : Bool :=
  next? (exec i s) fun t => answer t = some a ∧ t.chans = s.chans

/-- One TICK at this level on a block of one channel. -/
def ticks (level : Levels) (c : Channel) (cfg : Config) (after : ChState × Nat × Nat × List Nat × Bool) : Bool :=
  next? (exec (.tick level) (block cfg [c])) fun t => chan0 t = some after

/-- V-G1's buffer: the REF frame of the 12 bits 1010 0101 1100. -/
def frameG1 : List Nat :=
  [201, 48, 12, 24, 12, 12, 12, 24, 12, 12, 12, 12, 12, 24] ++ [12, 12, 12, 24, 12, 24, 12, 24, 12, 12, 12, 12]

/-- V-G1's bits. -/
def bitsG1 : List Bool := [true, false, true, false, false, true, false, true, true, true, false, false]

/-- The 32 bits 0xA5C3A5C3. -/
def bitsA5C3 : List Bool :=
  [true, false, true, false, false, true, false, true] ++ [true, true, false, false, false, false, true, true] ++
  [true, false, true, false, false, true, false, true] ++ [true, true, false, false, false, false, true, true]

/-- The buffer `F(bits)` of 95_test_vectors.md, with the header `h`. -/
def frameOf (h : Nat) (bits : List Bool) : List Nat :=
  201 :: h :: bits.flatMap fun b => [12, if b then 24 else 12]

/-- REF, STOPPED, with this whole buffer. -/
def stoppedRef (raw : List Nat) : Channel := chanOf Config.ref .stopped 101 raw.length raw

/-- V-G6: 13 bits, a separator of 16, three entries more. -/
def chanG6 : Channel := stoppedRef (frameOf 48 (true :: bitsG1) ++ [16, 24, 12, 12])

/-- V-G7: 11 bits, a separator of 16, seven entries more. -/
def chanG7 : Channel :=
  stoppedRef (frameOf 48 [true, false, true, true, false, true, false, false, true, false, true] ++
    [16, 24, 12, 12, 12, 12, 12, 12])

/-- V-G12: 34 bits and a trailing 12. -/
def chanG12 : Channel := stoppedRef (frameOf 48 (true :: true :: bitsA5C3) ++ [12])

/-- V-H4's buffer. -/
def frameH4 : List Nat := [13, 4, 2, 4, 6, 2, 2, 8]

/-- REF, STOPPED with V-G1's frame, el 149 (program P1 after line 7). -/
def chanG1 : Channel := chanOf Config.ref .stopped 149 26 frameG1

/-- SMALL, STOPPED with V-H4's frame. -/
def chanH4 : Channel := chanOf Config.small .stopped 0 8 frameH4

/-- REF with one channel. -/
def sG1 : State := block Config.ref [chanG1]

/-- SMALL with one channel. -/
def sH4 : State := block Config.small [chanH4]

/-- The pins of a cycle that offers the word `w`. -/
def offer (w : CmdWord) : Pins := { Pins.idle with cmdValid := true, cmd := w }

/-- The pins of a TICK. -/
def tickPins (l : Levels) : Pins := { Pins.idle with tick := true, irIn := l }

/-- The pins of a cycle with both. -/
def both (w : CmdWord) (l : Levels) : Pins := { offer w with tick := true, irIn := l }

/-- The pins of a reset cycle. -/
def resetPins : Pins := { Pins.idle with rst := true }

/-! ## Decoding: words written out from 30_encoding.md R72, R75 to R78 -/

theorem test_decode_nop : decodeCmd 0b0000001100000000 = .ok (.nop 3) := by decide
theorem test_decode_resume : decodeCmd 0b0001000100000000 = .ok (.resume 1) := by decide
theorem test_decode_decode : decodeCmd 0b0010111100000000 = .ok (.decode 15) := by decide
theorem test_decode_setblink :
    decodeCmd 0b0011000000000001 = .ok (.setblink 0 true) ∧ decodeCmd 0b0011010000000000 = .ok (.setblink 4 false) := by
  decide
theorem test_decode_rdstatus : decodeCmd 0b0100001000000000 = .ok (.rdstatus 2) := by decide
theorem test_decode_rdlen : decodeCmd 0b0101100000000000 = .ok (.rdlen 8) := by decide
theorem test_decode_rdelapsed : decodeCmd 0b0110010100000000 = .ok (.rdelapsed 5) := by decide
theorem test_decode_rdraw : decodeCmd 0b0111000100011010 = .ok (.rdraw 1 26) := by decide
/-- Two channels: `1 L1 L0`. -/
theorem test_decode_tick :
    decodeWire 2 (.evt 0b110) = .ok (.tick 0b10) ∧ decodeWire 1 (.evt 0b10) = .ok (.tick 0) := by decide

/-- V-E2, V-E4, V-E5, V-E10; an event word without its strobe; one with a bit above it. -/
theorem test_decode_refuses :
    decodeCmd 0x0001 = .error .reservedOperandBits ∧ decodeCmd 0x3002 = .error .reservedOperandBits ∧
    decodeCmd 0x8000 = .error .reservedOpcode ∧ decodeCmd 0x1105 = .error .reservedOperandBits ∧
    decodeWire 1 (.evt 0b01) = .error .noStrobe ∧ decodeWire 1 (.evt 0b100) = .error .extraBits := by decide

/-- 30_encoding.md R84: a level for a channel the block does not have is not well-formed. -/
theorem test_wellFormed_refuses :
    (Instr.tick 2).wellFormed 1 = false ∧ (Instr.tick 1).wellFormed 1 = true ∧
    (Instr.tick 0x8000).wellFormed 15 = false ∧ (Instr.tick 0x8000).wellFormed 16 = true := by decide

/-- 30_encoding.md R84 to R86: `tick.m ×2`, `rdraw c0, 0x19`, and `setblink c0, 2`, which an assembler refuses. -/
theorem test_assembler :
    Asm.assemble? 1 false ['t', 'i', 'c', 'k', '.', 'm', ' ', '×', '2'] = some [tickPins 0, tickPins 0] ∧
    Asm.assemble? 1 false ['r', 'd', 'r', 'a', 'w', ' ', 'c', '0', ',', ' ', '0', 'x', '1', '9'] = some [offer 0x7019] ∧
    Asm.assemble? 1 false ['s', 'e', 't', 'b', 'l', 'i', 'n', 'k', ' ', 'c', '0', ',', '2'] = none := by decide

/-! ## One step of each instruction -/

/-- V-E1, V-E7. -/
theorem test_nop :
    answers (.nop 0) sG1 (.ok, .none, 0, 0) ∧ answers (.nop 1) sG1 (.badChannel, .none, 0, 0) := by decide

/-- V-C1. -/
theorem test_resume : next? (exec (.resume 0) sG1) (fun t =>
    chan0 t = some (.idle, 149, 0, [], false) ∧ answer t = some (.ok, .none, 0, 0)) := by decide

/-- V-C13 and the write of V-E3; `led_q` is held. -/
theorem test_setblink : next? (exec (.setblink 0 false) (block Config.small
      [{ chanH4 with blinkEn := true, ledQ := true }])) (fun t => t.chans = [{ chanH4 with ledQ := true }]) ∧
    next? (exec (.setblink 0 true) sH4) (fun t => t.chans = [{ chanH4 with blinkEn := true }]) := by decide

/-- V-C6, V-C7. -/
theorem test_rdstatus :
    answers (.rdstatus 0) sH4 (.ok, .none, 0, 0x27) ∧
    answers (.rdstatus 0) (block Config.small [{ chanOf Config.small .stopped 0 2 [11, 4] with
      blinkEn := true, ledQ := true }]) (.ok, .none, 0, 0x3B) := by decide

/-- V-C8. -/
theorem test_rdlen : answers (.rdlen 0) sG1 (.ok, .none, 0, 26) := by decide

/-- V-C9. -/
theorem test_rdelapsed : answers (.rdelapsed 0) sG1 (.ok, .none, 0, 0x95) := by decide

/-- V-C10 and V-C11: the highest valid index is `length - 1`. -/
theorem test_rdraw :
    answers (.rdraw 0 25) sG1 (.ok, .none, 0, 12) ∧ answers (.rdraw 0 26) sG1 (.badIndex, .none, 0, 0) := by decide

/-- V-D2 (V-G1), V-G6 (the separator break keeps the bits so far), V-G12 (more than 32 bits), and the two header edges
of V-G8 that match. -/
theorem test_decode_framed :
    answers (.decode 0) sG1 (.ok, .framed, 12, 0xA5C) ∧
    answers (.decode 0) (block Config.ref [chanG6]) (.ok, .framed, 13, 0x1A5C) ∧
    answers (.decode 0) (block Config.ref [chanG12]) (.ok, .framed, 34, 0xA5C3A5C3) ∧
    answers (.decode 0) (block Config.ref [stoppedRef (frameOf 36 bitsG1)]) (.ok, .framed, 12, 0xA5C) ∧
    answers (.decode 0) (block Config.ref [stoppedRef (frameOf 60 bitsG1)]) (.ok, .framed, 12, 0xA5C) := by decide

/-- V-D4 (V-H4), V-D3, V-G9's fallback from a MARK that is neither a one nor a zero, V-G7 (11 bits before the break), and
the two header edges of V-G8 that fail. -/
theorem test_decode_hash :
    answers (.decode 0) sH4 (.ok, .hash, 32, 0x2BF50A83) ∧
    answers (.decode 0) (block Config.small [chanOf Config.small .stopped 11 2 [11, 4]]) (.noMatch, .none, 0, 0) ∧
    answers (.decode 0) (block Config.ref [chanOf Config.ref .stopped 101 26 (frameG1.set 13 16)])
      (.ok, .hash, 32, 0x07275789) ∧
    answers (.decode 0) (block Config.ref [chanG7]) (.ok, .hash, 32, 0x48DED71D) ∧
    grammar Config.ref (stoppedRef (frameOf 35 bitsG1)) = .failed ∧
    grammar Config.ref (stoppedRef (frameOf 61 bitsG1)) = .failed := by decide

/-- V-M2, V-M3 and V-M4: the edges of three windows. -/
theorem test_match_edges :
    ([17, 18, 30, 31].map fun m => durationMatches Config.ref (BitVec.ofNat 32 m) 24) = [false, true, true, false] ∧
    ([8, 9, 15, 16].map fun m => durationMatches Config.ref (BitVec.ofNat 32 m) 12) = [false, true, true, false] ∧
    ([1, 2, 6, 7].map fun m => durationMatches Config.ref (BitVec.ofNat 32 m) 4) = [false, true, true, false] := by
  decide

/-- V-K1, V-K2, V-K4, V-K5, V-K10. -/
theorem test_cmp :
    cmpDurations Config.ref 12 24 = -1 ∧ cmpDurations Config.ref 24 12 = 1 ∧ cmpDurations Config.ref 10 13 = -1 ∧
    cmpDurations Config.ref 8 10 = 0 ∧ cmpDurations Config.ref 0 0 = 0 := by decide

/-- V-T2, V-T3 (a frame starts at the gap threshold and not below it), V-T8, V-T9 (it ends above the threshold and not
at it). -/
theorem test_tick_gap_edges :
    ticks 0 (chanOf Config.small .idle 8 0 []) Config.small (.idle, 0, 0, [], false) ∧
    ticks 0 (chanOf Config.small .idle 9 0 []) Config.small (.readingMark, 0, 1, [10], false) ∧
    ticks 1 (chanOf Config.small .readingSpace 9 2 [11, 4]) Config.small (.readingSpace, 10, 2, [11, 4], false) ∧
    ticks 1 (chanOf Config.small .readingSpace 10 2 [11, 4]) Config.small (.stopped, 11, 2, [11, 4], false) := by
  decide

/-- V-T12 (the full buffer's guard), V-T14, V-T18 (saturation), V-T20 (the indicator follows the sample). -/
theorem test_tick_full_and_blink :
    ticks 0 (chanOf Config.small .readingSpace 3 8 [11, 4, 2, 4, 6, 2, 2, 8]) Config.small
      (.stopped, 0, 8, [11, 4, 2, 4, 6, 2, 2, 8], false) ∧
    ticks 1 (chanOf Config.small .readingMark 2 7 [11, 4, 2, 4, 6, 2, 2]) Config.small
      (.readingSpace, 0, 8, [11, 4, 2, 4, 6, 2, 2, 3], false) ∧
    ticks 1 (chanOf Config.small .stopped 255 2 [11, 4]) { Config.small with cntMode := .saturate }
      (.stopped, 255, 2, [11, 4], false) ∧
    ticks 0 { chanOf Config.small .readingSpace 3 4 [11, 4, 2, 4] with blinkEn := true } Config.small
      (.readingMark, 0, 5, [11, 4, 2, 4, 4], true) := by decide

/-! ## One cycle -/

/-- V-O1: the RESUME runs first, then the TICK sees IDLE with el 150. -/
theorem test_cycle_resume_and_mark : next? (step { sG1 with inputs := [both 0x1000 0] }) (fun t =>
    chan0 t = some (.readingMark, 0, 1, [150], false) ∧ answer t = some (.ok, .none, 0, 0)) := by decide

/-- V-O2: DECODE is decided before the TICK that stops the channel. -/
theorem test_cycle_decode_before_tick :
    next? (step { block Config.ref [chanOf Config.ref .readingSpace 100 26 frameG1] with inputs := [both 0x2000 1] })
      (fun t => chan0 t = some (.stopped, 101, 26, frameG1, false) ∧ answer t = some (.notReady, .none, 0, 0)) := by
  decide

/-- V-O5, with a RESUME and a TICK in the reset cycle. -/
theorem test_cycle_reset :
    next? (step { sG1 with inputs := [{ both 0x2000 0 with rst := true }] }) (fun t =>
      chan0 t = some (.idle, 0, 0, [], false) ∧ answer t = none) := by decide

/-- V-E9 at the port: ILLEGAL before BAD_CHANNEL. -/
theorem test_cycle_illegal : next? (step { sG1 with inputs := [offer 0x8100] }) (fun t =>
    answer t = some (.illegal, .none, 0, 0) ∧ t.chans = sG1.chans) := by decide

/-- 30_encoding.md R81, R82: the codes on the ports in the cycle that drives a response. -/
theorem test_response_codes :
    ([Status.ok, .notReady, .noMatch, .badIndex, .badChannel, .illegal].map fun st =>
      ({ sG1 with outstanding := some { rsp := .bare st, wait := 0 } } : State).ports.rspStatus.toNat) =
        [0, 1, 2, 3, 4, 5] ∧
    ([Tag.none, .framed, .hash].map fun tg =>
      ({ sG1 with outstanding := some { rsp := { Response.bare .ok with tag := tg }, wait := 0 } } :
        State).ports.rspTag.toNat) = [0, 1, 2] := by decide

/-- V-C4 and V-T1's row from reset, as the host's probe runs them. -/
theorem test_fetch_word :
    next? (step (State.reset.withFetchWord 16 0x4000)) (fun t => answer t = some (.ok, .none, 0, 0)) ∧
    next? (step (State.reset.withFetchWord 8 0b11)) (fun t => chan0 t = some (.idle, 1, 0, [], false)) := by decide

/-! ## Witnesses: states and operands that meet the hypotheses of each statement -/

theorem inv_of_one {cfg : Config} {c : Channel} (hl : configLegal 1 cfg = true) (hc : c.Inv cfg) (ins : List Pins) :
    State.Inv { block cfg [c] with inputs := ins } :=
  ⟨hl, fun _ hd => by cases hd with
    | head => exact hc
    | tail _ h => cases h⟩

/-- A channel's invariant as one evaluation. -/
def chanOk (cfg : Config) (c : Channel) : Bool :=
  decide (c.elapsedTicks.toNat < 2 ^ cfg.tickW) && decide (c.rawBuffer.length = cfg.capacity) &&
  c.rawBuffer.all (fun v => decide (v.toNat < 2 ^ cfg.tickW)) && decide (c.length.toNat ≤ cfg.capacity) &&
  match c.state with
  | .idle => decide (c.length.toNat = 0)
  | .readingMark => decide (c.length.toNat % 2 = 1 ∧ 1 ≤ c.length.toNat)
  | .readingSpace => decide (c.length.toNat % 2 = 0 ∧ 2 ≤ c.length.toNat)
  | .stopped => decide (c.length.toNat % 2 = 0 ∨ c.length.toNat = cfg.capacity)

theorem chan_inv_of_ok {cfg : Config} {c : Channel} (h : chanOk cfg c = true) : c.Inv cfg := by
  simp only [chanOk, Bool.and_eq_true, decide_eq_true_eq, List.all_eq_true] at h
  obtain ⟨⟨⟨⟨h1, h2⟩, h3⟩, h4⟩, h5⟩ := h
  refine ⟨h1, ⟨h2, h3⟩, h4, ?_⟩
  unfold Channel.stateLengthInv
  cases hs : c.state <;> simp only [hs, decide_eq_true_eq] at h5 <;> exact h5

theorem sG1_inv (ins : List Pins) : State.Inv { sG1 with inputs := ins } := inv_of_one (by decide) (chan_inv_of_ok (by decide)) ins

theorem witness_ResetLeavesEveryChannelAtItsResetValues :
    Channel.reset Config.ref ∈ State.reset.chans ∧ Channel.reset Config.small ∈ (State.resetOf 16 Config.small).chans := by
  decide

theorem witness_ResetMeetsInvariant : configLegal 1 Config.ref = true ∧ configLegal 16 Config.small = true := by decide

/-- With the clause about the cycle that follows. -/
theorem witness_ResetCycleResetsAndDiscards : ∃ s : State, s.legal = true ∧ s.pins.rst = true ∧
    ∃ t, step s = .next t ∧ t.pins.rst = false :=
  ⟨{ sG1 with inputs := [resetPins] }, by decide, by decide, _, rfl, by decide⟩

/-- One state at the boundary of each constraint; and N_BITS at the least value whose frame SMALL cannot hold. -/
theorem witness_ConstraintBreakingConfigurationIsRefused :
    (configLegal 1 Config.small = true ∧ Config.small.capacity < 2 * 4 + 2) ∧
    (∃ s : State, s.nch = 17) ∧ (∃ s : State, s.cfg.capacity = 257) ∧ (∃ s : State, s.cfg.capacity = 1) ∧
    ∃ s : State, s.cfg.gapTicks + 1 = 2 ^ s.cfg.tickW :=
  ⟨by decide, ⟨State.resetOf 17 Config.ref, by decide⟩, ⟨block { Config.ref with capacity := 257 } [], rfl⟩,
    ⟨block { Config.ref with capacity := 1 } [], rfl⟩, ⟨block { Config.small with gapTicks := 255 } [], by decide⟩⟩

theorem witness_EveryCycleOfLegalConfigurationGoesOn : sG1.legal = true ∧ (State.resetOf 16 Config.small).legal = true := by
  decide

theorem witness_DecodeOfEncodeIsTheInstruction :
    16 ≤ 16 ∧ (Instr.tick 0xFFFF).wellFormed 16 = true ∧ (Instr.setblink 15 true).wellFormed 1 = true := by decide

theorem witness_EncodeOfDecodedCommandIsTheWord : decodeCmd 0x7FFF = .ok (.rdraw 15 255) := by decide

/-- Each way to be ILLEGAL at its boundary, and two words that are not. -/
theorem witness_IllegalWordsAreExactlyTheReservedOnes :
    8 ≤ (0x8000 : CmdWord).toNat / 2 ^ 12 ∧
    ((0x3002 : CmdWord).toNat / 2 ^ 12 = 3 ∧ 2 ≤ (0x3002 : CmdWord).toNat % 2 ^ 8) ∧
    ((0x6001 : CmdWord).toNat / 2 ^ 12 = 6 ∧ (0x6001 : CmdWord).toNat % 2 ^ 8 ≠ 0) ∧
    ((0x70FF : CmdWord).toNat / 2 ^ 12 = 7) ∧
    ((0x3001 : CmdWord).toNat / 2 ^ 12 = 3 ∧ ¬ 2 ≤ (0x3001 : CmdWord).toNat % 2 ^ 8) := by decide

/-- Sixteen levels, the last of them 1; and a block of two channels. -/
theorem witness_WrittenTickCarriesItsLevels :
    (2 ≠ 1) ∧ ([0, 1, 0, 1, 0, 1, 0, 1] ++ [0, 0, 0, 0, 0, 0, 0, 1]).length = 16 ∧
    (∀ l ∈ [0, 1, 0, 1, 0, 1, 0, 1] ++ [0, 0, 0, 0, 0, 0, 0, 1], l ≤ 1) ∧
    ([0, 1, 0, 1, 0, 1, 0, 1] ++ [0, 0, 0, 0, 0, 0, 0, 1])[15]? = some 1 := by decide

theorem witness_CommandCycleRunsTheDecodedInstruction : ∃ s : State, s.legal = true ∧ s.pins.rst = false ∧
    s.pins.tick = false ∧ s.pins.cmdValid = true ∧ s.cmdReady = true ∧ decodeCmd s.pins.cmd = .ok (.rdraw 0 25) :=
  ⟨{ sG1 with inputs := [offer 0x7019] }, by decide⟩

/-- With no command, and with one that is offered while the port is not ready. -/
theorem witness_TickCycleRunsTheTickInstruction :
    (∃ s : State, s.legal = true ∧ s.pins.rst = false ∧ s.pins.tick = true ∧ s.pins.cmdValid = false) ∧
    ∃ s : State, s.legal = true ∧ s.pins.rst = false ∧ s.pins.tick = true ∧ s.cmdReady = false :=
  ⟨⟨{ sG1 with inputs := [tickPins 1] }, by decide⟩,
    ⟨{ sG1 with inputs := [both 0x1000 1], outstanding := some { rsp := .bare .ok, wait := 1 } }, by decide⟩⟩

/-- With the RESUME clause and the SETBLINK clause. -/
theorem witness_CommandRunsFirstThenTheTickOfItsCycle :
    (∃ s : State, s.legal = true ∧ s.pins.rst = false ∧ s.pins.tick = true ∧ s.pins.cmdValid = true ∧
      s.cmdReady = true ∧ decodeCmd s.pins.cmd = .ok (.resume 0) ∧ s.chans[0]? = some chanG1) ∧
    ∃ s : State, s.legal = true ∧ s.pins.rst = false ∧ s.pins.tick = true ∧ s.pins.cmdValid = true ∧
      s.cmdReady = true ∧ decodeCmd s.pins.cmd = .ok (.setblink 0 true) ∧ s.chans[0]? = some chanG1 :=
  ⟨⟨{ sG1 with inputs := [both 0x1000 0] }, by decide⟩, ⟨{ sG1 with inputs := [both 0x3001 0] }, by decide⟩⟩

/-- At the boundary: the counter reaches the gap threshold in this very TICK. -/
theorem witness_ResumeWithMarkInOneCycleStartsAFrame : ∃ s c, State.Inv s ∧ s.pins.rst = false ∧ s.pins.tick = true ∧
    s.pins.cmdValid = true ∧ s.cmdReady = true ∧ decodeCmd s.pins.cmd = .ok (.resume 0) ∧ s.chans[0]? = some c ∧
    levelOf s.pins.irIn 0 = s.cfg.markLevel ∧ s.cfg.gapTicks = (inc s.cfg c.elapsedTicks).toNat :=
  ⟨{ block Config.ref [{ chanG1 with elapsedTicks := 99 }] with inputs := [both 0x1000 0] }, { chanG1 with elapsedTicks := 99 },
    inv_of_one (by decide) (chan_inv_of_ok (by decide)) _, by decide⟩

/-- An idle cycle, and a cycle with an accepted DECODE. -/
theorem witness_CycleWithoutTickChangesNoChannel :
    (sG1.legal = true ∧ sG1.pins.rst = false ∧ sG1.pins.tick = false ∧ sG1.pins.cmdValid = false) ∧
    ∃ s : State, s.legal = true ∧ s.pins.rst = false ∧ s.pins.tick = false ∧ decodeCmd s.pins.cmd = .ok (.decode 0) :=
  ⟨by decide, { sG1 with inputs := [offer 0x2000] }, by decide⟩

theorem witness_CommandOfferedWhileNotReadyIsNotAccepted : ∃ s : State, s.inputs = [offer 0x1000] ∧ s.cmdReady = false :=
  ⟨{ sG1 with inputs := [offer 0x1000], outstanding := some { rsp := .bare .ok, wait := 1 } }, by decide⟩

/-- Two cycles to wait, and no command offered in the cycle of the response. -/
theorem witness_ResponseIsDrivenForOneCycleAfterItsWait : ∃ (s : State) (r : Response), s.legal = true ∧
    s.outstanding = some { rsp := r, wait := 2 } ∧ (∀ p ∈ s.inputs, p.rst = false) ∧
    ∃ t, Host.Core.run core 2 s = .next t ∧ t.pins.cmdValid = false :=
  ⟨{ sG1 with inputs := [tickPins 0], outstanding := some { rsp := .okData 26, wait := 2 } }, .okData 26, by decide,
    by decide, by decide, _, rfl, by decide⟩

theorem witness_EveryAcceptedWordGetsAResponse : ∃ s : State, s.legal = true ∧ s.pins.rst = false ∧
    s.pins.cmdValid = true ∧ s.cmdReady = true :=
  ⟨{ sG1 with inputs := [offer 0xFFFF] }, by decide⟩

/-- Without and with a TICK. -/
theorem witness_IllegalWordIsAnsweredAndWritesNothing :
    (∃ s : State, s.legal = true ∧ s.pins.rst = false ∧ s.pins.cmdValid = true ∧ s.cmdReady = true ∧
      decodeCmd s.pins.cmd = .error .reservedOpcode ∧ s.pins.tick = false) ∧
    ∃ s : State, s.legal = true ∧ s.pins.rst = false ∧ s.pins.cmdValid = true ∧ s.cmdReady = true ∧
      decodeCmd s.pins.cmd = .error .reservedOperandBits ∧ s.pins.tick = true :=
  ⟨⟨{ sG1 with inputs := [offer 0x8100] }, by decide⟩, ⟨{ sG1 with inputs := [both 0x3002 0] }, by decide⟩⟩

theorem witness_NopAnswersOk : (0 : ChanIdx).toNat < sG1.nch ∧ (15 : ChanIdx).toNat < (State.resetOf 16 Config.ref).nch := by
  decide

theorem witness_ResumeSetsIdleAndLengthZero : sG1.chans[(0 : ChanIdx).toNat]? = some chanG1 := by decide

theorem witness_ResumeIsIdempotentAndMakesDecodeNotReady : (0 : ChanIdx).toNat < sG1.nch := by decide

/-- Both clauses. -/
theorem witness_SetblinkWritesBlinkEnable : sG1.chans[(0 : ChanIdx).toNat]? = some chanG1 ∧
    (0x3002 : CmdWord).toNat / 2 ^ 12 = 3 ∧ 2 ≤ (0x3002 : CmdWord).toNat % 2 ^ 8 := by decide

theorem witness_RdstatusReturnsTheStatusWord : sH4.chans[(0 : ChanIdx).toNat]? = some chanH4 := by decide

theorem witness_RdlenReturnsLength : sG1.chans[(0 : ChanIdx).toNat]? = some chanG1 := by decide

theorem witness_RdelapsedReturnsElapsedTicks : sG1.chans[(0 : ChanIdx).toNat]? = some chanG1 := by decide

/-- The highest valid index and the lowest invalid one. -/
theorem witness_RdrawReturnsTheEntryOrBadIndex : sG1.Inv ∧ sG1.chans[(0 : ChanIdx).toNat]? = some chanG1 ∧
    (25 : BitVec 8).toNat < chanG1.length.toNat ∧ chanG1.length.toNat ≤ (26 : BitVec 8).toNat :=
  ⟨sG1_inv [], by decide⟩

theorem witness_EveryCommandOnAMissingChannelIsBadChannel :
    (Instr.rdraw 1 0).channel? = some 1 ∧ sG1.nch ≤ (1 : ChanIdx).toNat := by decide

theorem witness_ReadsHaveNoSideEffects : (Instr.decode 0).channel? = some 0 ∧ (∀ k, Instr.decode 0 ≠ .resume k) ∧
    (∀ k en, Instr.decode 0 ≠ .setblink k en) ∧
    ({ sG1 with outstanding := some { rsp := .bare .ok, wait := 0 } } : State).chans = sG1.chans :=
  ⟨rfl, nofun, nofun, rfl⟩

/-- Two blocks whose second channels differ. -/
theorem witness_CommandActsOnItsChannelAlone :
    let s := block Config.ref [chanG1, chanG1]
    let s' := block Config.ref [chanG1, Channel.reset Config.ref]
    (Instr.resume 0).channel? = some 0 ∧ s.cfg = s'.cfg ∧ s.freeIdx = s'.freeIdx ∧ s.chans[0]? = s'.chans[0]? ∧
      s.chans[1]? ≠ s'.chans[1]? := by decide

theorem witness_DecodeBeforeStoppedIsNotReady :
    State.reset.chans[(0 : ChanIdx).toNat]? = some (Channel.reset Config.ref) ∧
    (Channel.reset Config.ref).state ≠ .stopped := by decide

/-- Both clauses, at lengths 5 and 6 (V-H5, V-H1). -/
theorem witness_DecodeOfStoppedChannelIsOkFromLengthSix :
    let c := chanOf Config.ref .stopped 101 5 [50, 10, 10, 10, 10]
    let d := chanOf Config.ref .stopped 101 6 [50, 10, 10, 10, 10, 10]
    ((block Config.ref [c]).chans[0]? = some c ∧ c.state = .stopped ∧ c.length.toNat < 6) ∧
    (block Config.ref [d]).chans[0]? = some d ∧ d.state = .stopped ∧ 6 ≤ d.length.toNat := by decide

/-- The hypotheses of Obligations.DecodeRecoversTheBitsMostSignificantFirst on the channel and the bits. -/
def HoldsBits (cfg : Config) (c : Channel) (bits : List Bool) : Prop :=
  c.state = .stopped ∧ 2 * bits.length + 2 ≤ c.length.toNat ∧
  (c.length.toNat ≤ 2 * bits.length + 3 ∨ durationMatches cfg (c.raw (2 * bits.length + 2)) cfg.hdrSpace = false) ∧
  durationMatches cfg (c.raw 1) cfg.hdrMark = true ∧
  ∀ i b, bits[i]? = some b → durationMatches cfg (c.raw (2 * i + 2)) cfg.hdrSpace = true ∧
    durationMatches cfg (c.raw (2 * i + 3)) cfg.oneMark = b ∧
    (b = false → durationMatches cfg (c.raw (2 * i + 3)) cfg.zeroMark = true)

/-- The same as one evaluation. -/
def holdsBits (cfg : Config) (c : Channel) (bits : List Bool) : Bool :=
  decide (c.state = .stopped) && decide (2 * bits.length + 2 ≤ c.length.toNat) &&
  (decide (c.length.toNat ≤ 2 * bits.length + 3) ||
    !durationMatches cfg (c.raw (2 * bits.length + 2)) cfg.hdrSpace) &&
  durationMatches cfg (c.raw 1) cfg.hdrMark &&
  (List.range bits.length).all fun i =>
    let m := c.raw (2 * i + 3)
    durationMatches cfg (c.raw (2 * i + 2)) cfg.hdrSpace && (durationMatches cfg m cfg.oneMark == bits.getD i false) &&
      (bits.getD i false || durationMatches cfg m cfg.zeroMark)

theorem holds_of_holdsBits {cfg : Config} {c : Channel} {bits : List Bool} (h : holdsBits cfg c bits = true) :
    HoldsBits cfg c bits := by
  simp only [holdsBits, Bool.and_eq_true, Bool.or_eq_true, decide_eq_true_eq, Bool.not_eq_true', List.all_eq_true,
    List.mem_range, beq_iff_eq] at h
  obtain ⟨⟨⟨⟨h1, h2⟩, h3⟩, h4⟩, h5⟩ := h
  refine ⟨h1, h2, h3, h4, fun i b hb => ?_⟩
  obtain ⟨hi, rfl⟩ := List.getElem?_eq_some_iff.mp hb
  obtain ⟨⟨a, m⟩, z⟩ := h5 i hi
  rw [List.getD_eq_getElem?_getD, hb, Option.getD_some] at m z
  exact ⟨a, m, fun hf => z.resolve_left (by simp [hf])⟩

/-- Exactly 12 bits (V-G1), 34 bits and a lone trailing entry (V-G12), 13 bits up to a failing separator (V-G6), and, for
the last clause, 11 bits up to one (V-G7) and none at all (V-G11). -/
theorem witness_DecodeRecoversTheBitsMostSignificantFirst :
    (sG1.chans[(0 : ChanIdx).toNat]? = some chanG1 ∧ HoldsBits sG1.cfg chanG1 bitsG1 ∧ 12 ≤ bitsG1.length ∧
      2 * sG1.cfg.nBits + 2 ≤ chanG1.length.toNat ∧ bitsG1.length ≤ 32) ∧
    (HoldsBits Config.ref chanG12 (true :: true :: bitsA5C3) ∧ 32 < (true :: true :: bitsA5C3).length ∧
      2 * Config.ref.nBits + 2 ≤ chanG12.length.toNat) ∧
    (HoldsBits Config.ref chanG6 (true :: bitsG1) ∧ 12 ≤ (true :: bitsG1).length ∧
      2 * Config.ref.nBits + 2 ≤ chanG6.length.toNat) ∧
    (HoldsBits Config.ref chanG7 [true, false, true, true, false, true, false, false, true, false, true] ∧
      6 ≤ chanG7.length.toNat) ∧
    HoldsBits Config.ref (stoppedRef (frameG1.set 2 16)) [] :=
  ⟨⟨by decide, holds_of_holdsBits (by decide), by decide⟩, ⟨holds_of_holdsBits (by decide), by decide⟩,
    ⟨holds_of_holdsBits (by decide), by decide⟩, ⟨holds_of_holdsBits (by decide), by decide⟩,
    holds_of_holdsBits (by decide)⟩

/-- A match; and a block whose CAPACITY is below 26, stopped at length 8. -/
theorem witness_GrammarNeedsItsMinimumLength : grammar Config.ref chanG1 = .matched 0xA5C 12 ∧
    State.Inv sH4 ∧ sH4.chans[(0 : ChanIdx).toNat]? = some chanH4 ∧ chanH4.state = .stopped ∧ sH4.cfg.capacity < 26 ∧
    6 ≤ chanH4.length.toNat :=
  ⟨by decide, inv_of_one (by decide) (chan_inv_of_ok (by decide)) [], by decide⟩

theorem witness_MatchedBitCountIsBounded :
    sG1.Inv ∧ chanG1 ∈ sG1.chans ∧ grammar sG1.cfg chanG1 = .matched 0xA5C 12 :=
  ⟨sG1_inv [], by decide⟩

theorem witness_LoneTrailingEntryIsIgnored :
    (chanOf Config.ref .stopped 101 27 (frameG1 ++ [12])).length.toNat % 2 = 1 := by decide

/-- V-G6's shape: 13 bits, a separator of 16, then different entries. -/
theorem witness_EntriesAfterAFailedSeparatorAreIgnored :
    let c := chanOf Config.ref .stopped 101 30 (frameG1 ++ [16, 24, 12, 12])
    let d := chanOf Config.ref .stopped 101 30 (frameG1 ++ [16, 99, 1, 50])
    c.length = d.length ∧ (∀ i, i ≤ 2 * 12 + 2 → c.raw i = d.raw i) ∧ c.raw 27 ≠ d.raw 27 ∧
      durationMatches Config.ref (c.raw (2 * 12 + 2)) Config.ref.hdrSpace = false :=
  ⟨by decide, fun i hi => by interval_cases i <;> rfl, by decide, by decide⟩

/-- V-G9: bit 6's MARK is 16, after five good bits. -/
theorem witness_MarkOfNeitherDurationFallsBackToTheHash :
    let c := chanOf Config.ref .stopped 101 26 (frameG1.set 13 16)
    (block Config.ref [c]).chans[(0 : ChanIdx).toNat]? = some c ∧ c.state = .stopped ∧ 2 * 5 + 3 < c.length.toNat ∧
    6 ≤ c.length.toNat ∧
    (∀ i, i ≤ 5 → durationMatches Config.ref (c.raw (2 * i + 2)) Config.ref.hdrSpace = true) ∧
    (∀ i, i < 5 → durationMatches Config.ref (c.raw (2 * i + 3)) Config.ref.oneMark = true ∨
      durationMatches Config.ref (c.raw (2 * i + 3)) Config.ref.zeroMark = true) ∧
    durationMatches Config.ref (c.raw (2 * 5 + 3)) Config.ref.oneMark = false ∧
    durationMatches Config.ref (c.raw (2 * 5 + 3)) Config.ref.zeroMark = false :=
  ⟨by decide, by decide, by decide, by decide, fun i hi => by interval_cases i <;> decide,
    fun i hi => by interval_cases i <;> decide, by decide, by decide⟩

/-- V-G8: the headers on both sides of the window. -/
theorem witness_HeaderOutsideItsWindowFallsBackToTheHash :
    let c := stoppedRef (frameOf 35 bitsG1)
    let d := stoppedRef (frameOf 61 bitsG1)
    durationMatches Config.ref (c.raw 1) Config.ref.hdrMark = false ∧
    durationMatches Config.ref (d.raw 1) Config.ref.hdrMark = false ∧
    (block Config.ref [c]).chans[(0 : ChanIdx).toNat]? = some c ∧ c.state = .stopped ∧ 6 ≤ c.length.toNat := by decide

theorem witness_ComparisonHasThreeExclusiveCases : Config.ref.hashTolPct ≤ 99 ∧
    { Config.ref with hashTolPct := 99 }.hashTolPct ≤ 99 := by decide

/-- Buffers that differ only in entry 0 (and, for DECODE, in the counter). -/
theorem witness_HashReadsOnlyTheEntriesOfTheFrame :
    let c := chanOf Config.small .stopped 0 8 [13, 4, 2, 4, 6, 2, 2, 8]
    let d := chanOf Config.small .stopped 7 8 [99, 4, 2, 4, 6, 2, 2, 8]
    c.state = d.state ∧ c.length = d.length ∧ (∀ i, 1 ≤ i → i < c.length.toNat → c.raw i = d.raw i) ∧ c ≠ d :=
  ⟨by decide, by decide, fun i h1 h2 => by
    have : i < 8 := h2
    interval_cases i <;> rfl, by decide⟩

theorem witness_DecodeReadsOnlyTheEntriesOfTheFrame :
    ∃ c d : Channel, c.state = d.state ∧ c.length = d.length ∧
      (∀ i, 1 ≤ i → i < c.length.toNat → c.raw i = d.raw i) ∧ c ≠ d :=
  ⟨_, _, witness_HashReadsOnlyTheEntriesOfTheFrame⟩

/-- Both modes, and the greatest value of each width's counter. -/
theorem witness_CounterIncrementWrapsOrSaturates :
    (8 ≤ Config.small.tickW ∧ Config.small.tickW ≤ 32 ∧ Config.small.cntMode = .wrap) ∧
    { Config.small with cntMode := .saturate }.cntMode = .saturate ∧ 8 ≤ 32 := by decide

/-- A channel for each row of the table; the threshold on both of its sides. -/
theorem witness_TickFollowsTheTransitionTable :
    let full := chanOf Config.small .readingSpace 3 8 frameH4
    let idle := fun el => chanOf Config.small .idle el 0 []
    let space := fun el => chanOf Config.small .readingSpace el 2 [11, 4]
    let mark := chanOf Config.small .readingMark 3 1 [11]
    let s := block Config.small [full, idle 8, idle 9, mark, space 9, space 10]
    Config.small.capacity ≤ full.length.toNat ∧ mark.state = .readingMark ∧
    (inc s.cfg (idle 8).elapsedTicks).toNat < s.cfg.gapTicks ∧ s.cfg.gapTicks ≤ (inc s.cfg (idle 9).elapsedTicks).toNat ∧
    (inc s.cfg (space 9).elapsedTicks).toNat ≤ s.cfg.gapTicks ∧
    s.cfg.gapTicks < (inc s.cfg (space 10).elapsedTicks).toNat ∧
    (s.chans.map fun c => decide (s.cfg.capacity ≤ c.length.toNat)) = [true, false, false, false, false, false] ∧
    levelOf 0 0 = s.cfg.markLevel ∧ levelOf 1 0 ≠ s.cfg.markLevel := by decide

/-- Both clauses. -/
theorem witness_TickMirrorsTheSampleWhileBlinkIsEnabled :
    { chanH4 with blinkEn := true }.blinkEn = true ∧ chanH4.blinkEn = false ∧
    (block Config.small [{ chanH4 with blinkEn := true }, chanH4]).chans[1]? = some chanH4 := by decide

/-- Both values of `blink_en`. -/
theorem witness_LedPortShowsTheIndicator :
    (block Config.small [{ chanH4 with blinkEn := true }, chanH4]).chans[0]? = some { chanH4 with blinkEn := true } ∧
    (block Config.small [{ chanH4 with blinkEn := true }, chanH4]).chans[1]? = some chanH4 := by decide

/-- Channel 0 and its level agree; channel 1 and its level do not. -/
theorem witness_TickStepsEachChannelOnItsOwn :
    let s := block Config.ref [chanG1, chanG1]
    let s' := block Config.ref [chanG1, Channel.reset Config.ref]
    s.cfg = s'.cfg ∧ s.chans[0]? = s'.chans[0]? ∧ levelOf 0b01 0 = levelOf 0b11 0 ∧ levelOf 0b01 1 ≠ levelOf 0b11 1 := by
  decide

theorem witness_FullBufferIsStoppedByTheNextTick :
    let c := chanOf Config.small .readingSpace 3 8 frameH4
    (block Config.small [c]).chans[0]? = some c ∧ Config.small.capacity ≤ c.length.toNat := by decide

/-- SMALL, in a MARK run that has just begun. -/
def chanMark : Channel := chanOf Config.small .readingMark 0 1 [11]

/-- SMALL, in a SPACE run that has just begun. -/
def chanSpace : Channel := chanOf Config.small .readingSpace 0 2 [11, 4]

/-- A MARK run of four samples. -/
theorem witness_RecordedEntryIsTheLengthOfItsRun_mark :
    (block Config.small [chanMark]).Inv ∧ (block Config.small [chanMark]).chans[0]? = some chanMark ∧
    chanMark.elapsedTicks = 0 ∧ chanMark.length.toNat < Config.small.capacity ∧ 3 + 1 < 2 ^ Config.small.tickW ∧
    chanMark.state = .readingMark ∧ (∀ l ∈ List.replicate 3 (0 : Levels), levelOf l 0 = Config.small.markLevel) ∧
    levelOf 1 0 ≠ Config.small.markLevel :=
  ⟨inv_of_one (by decide) (chan_inv_of_ok (by decide)) [], by decide, by decide, by decide, by decide, by decide,
    fun l hl => by cases (List.mem_replicate.mp hl).2; decide, by decide⟩

/-- The longest SPACE run that is recorded: its counter reaches the threshold. -/
theorem witness_RecordedEntryIsTheLengthOfItsRun_space :
    (block Config.small [chanSpace]).Inv ∧ (block Config.small [chanSpace]).chans[0]? = some chanSpace ∧
    chanSpace.elapsedTicks = 0 ∧ chanSpace.length.toNat < Config.small.capacity ∧ 10 + 1 < 2 ^ Config.small.tickW ∧
    chanSpace.state = .readingSpace ∧ (∀ l ∈ List.replicate 10 (1 : Levels), levelOf l 0 ≠ Config.small.markLevel) ∧
    levelOf 0 0 = Config.small.markLevel ∧ 10 ≤ Config.small.gapTicks :=
  ⟨inv_of_one (by decide) (chan_inv_of_ok (by decide)) [], by decide, by decide, by decide, by decide, by decide,
    fun l hl => by cases (List.mem_replicate.mp hl).2; decide, by decide⟩

/-- SMALL, in a silence of four ticks. -/
def chanIdle : Channel := chanOf Config.small .idle 4 0 []

/-- The shortest gap: the counter reaches the threshold at the MARK. -/
theorem witness_LeadingGapIsTheCounterAtTheMarkThatEndsIt :
    (block Config.small [chanIdle]).Inv ∧ (block Config.small [chanIdle]).chans[0]? = some chanIdle ∧
    chanIdle.state = .idle ∧ chanIdle.elapsedTicks.toNat + 5 + 1 < 2 ^ Config.small.tickW ∧
    Config.small.gapTicks ≤ chanIdle.elapsedTicks.toNat + 5 + 1 ∧
    (∀ l ∈ List.replicate 5 (1 : Levels), levelOf l 0 ≠ Config.small.markLevel) ∧
    levelOf 0 0 = Config.small.markLevel :=
  ⟨inv_of_one (by decide) (chan_inv_of_ok (by decide)) [], by decide, by decide, by decide, by decide,
    fun l hl => by cases (List.mem_replicate.mp hl).2; decide, by decide⟩

/-- Nine MARKs, one below the threshold of ten. -/
theorem witness_NoFrameStartsBeforeTheGapAfterReset :
    configLegal 1 Config.small = true ∧ (List.replicate 9 (0 : Levels)).length < Config.small.gapTicks := by decide

theorem witness_StepKeepsInvariant : ∃ s t : State, s.Inv ∧ step s = .next t ∧ t.chans ≠ s.chans :=
  ⟨{ sG1 with inputs := [both 0x1000 0] }, _, sG1_inv _, rfl, by decide⟩

/-- A run of two cycles, the first of them a reset. -/
theorem witness_ReachableChannelsKeepLengthAndState : configLegal 16 Config.small = true ∧
    next? (Host.Core.run core 2 { State.resetOf 1 Config.small with inputs := [resetPins, tickPins 1] })
      (fun t => chan0 t = some (.idle, 1, 0, [], false)) := by decide

theorem witness_StoppedFrameIsStableUntilResume : ∃ s : State, s.legal = true ∧ s.chans[0]? = some chanG1 ∧
    chanG1.state = .stopped ∧ s.inputs ≠ [] ∧ ∀ p ∈ s.inputs, p.rst = false ∧ p.resumes 0 = false :=
  ⟨{ sG1 with inputs := [tickPins 0, offer 0x2000, offer 0x1100] }, by decide⟩

theorem witness_OnlyResumeLeavesStopped : ∃ (s t : State) (d : Channel), s.pins.rst = false ∧ step s = .next t ∧
    s.chans[0]? = some chanG1 ∧ t.chans[0]? = some d ∧ chanG1.state = .stopped ∧ d.state ≠ .stopped :=
  ⟨{ sG1 with inputs := [offer 0x1000] }, _, { chanG1 with state := .idle, length := 0 }, by decide, rfl, by decide⟩

end Sys2Proof.Tests
end

section
/-! Proofs of the statements on scope and parameters (00_scope.md). -/

namespace Sys2Proof.Machine

/-- A state whose parameters break a constraint of R8 is not legal. -/
theorem State.not_legal_of_constraint_broken {s : State}
    (h : 16 < s.nch ∨ 256 < s.cfg.capacity ∨ s.cfg.capacity < 2 ∨ 2 ^ s.cfg.tickW < s.cfg.gapTicks + 2) :
    s.legal = false := by
  refine Bool.eq_false_iff.mpr fun hl => ?_
  obtain ⟨-, hnch, -, -, hcapLow, hcapHigh, -, hgap⟩ := configLegal_bounds hl
  rcases h with h | h | h | h
  · exact absurd hnch (Nat.not_le.mpr h)
  · exact absurd hcapHigh (Nat.not_le.mpr h)
  · exact absurd hcapLow (Nat.not_le.mpr h)
  · exact absurd hgap (Nat.not_le.mpr h)

/-- N_BITS is bounded by its own column of R7 alone: legality relates it to no other parameter, CAPACITY included. -/
theorem configLegal_withNBits {nch n : Nat} {cfg : Config} (h : configLegal nch cfg = true) (hlow : 1 ≤ n)
    (hhigh : n ≤ 127) : configLegal nch { cfg with nBits := n } = true := by
  simp only [configLegal, decide_eq_true_eq] at h ⊢
  omega

/-- Settles O4: a broken constraint contradicts the bounds of a legal configuration, and the bound on N_BITS does not
mention CAPACITY. -/
theorem constraintBreakingConfigurationIsRefused : Obligations.ConstraintBreakingConfigurationIsRefused := by
  unfold Obligations.ConstraintBreakingConfigurationIsRefused
  constructor
  · intro s hbroken
    exact step_of_illegal (State.not_legal_of_constraint_broken hbroken)
  · intro nch n cfg hlegal hlow hhigh _
    exact configLegal_withNBits hlegal hlow hhigh

end Sys2Proof.Machine
end

section
/-! Proofs of the statements on the channels' state (10_state.md): its reset values (R39), the relation of `state` and
`length` in every reachable state (R33, R34), and what takes a channel out of STOPPED (R35). -/

namespace Sys2Proof.Machine

/-! ## Reset values -/

/-- With `length = 0` no entry can be read (10_state.md R24). -/
theorem Channel.entry?_of_length_zero {c : Channel} (h : c.length = 0) (idx : BitVec 8) : c.entry? idx = none :=
  if_pos (by rw [h]; exact Nat.zero_le _)

theorem State.mem_resetOf {nch : Nat} {cfg : Config} {c : Channel} (h : c ∈ (State.resetOf nch cfg).chans) :
    c = Channel.reset cfg := List.eq_of_mem_replicate h

/-- Settles O1: every channel of a reset state is `Channel.reset`, and its length 0 leaves no entry readable. -/
theorem resetLeavesEveryChannelAtItsResetValues : Obligations.ResetLeavesEveryChannelAtItsResetValues := by
  unfold Obligations.ResetLeavesEveryChannelAtItsResetValues
  refine ⟨List.cons_ne_nil _ _, fun s hs c hc => ?_⟩
  have hreset : ∃ cfg, c = Channel.reset cfg := by
    rcases hs with rfl | ⟨nch, cfg, rfl⟩
    · exact ⟨_, State.mem_resetOf hc⟩
    · exact ⟨_, State.mem_resetOf hc⟩
  obtain ⟨cfg, rfl⟩ := hreset
  exact ⟨rfl, rfl, rfl, rfl, rfl, Channel.entry?_of_length_zero rfl⟩

/-! ## Only a RESUME takes a channel out of STOPPED -/

/-- `d` holds the frame that `c` holds, in the same state: the fields that 20_memory.md R58 hands to the host. -/
structure Channel.SameFrame (c d : Channel) : Prop where
  state     : d.state = c.state
  length    : d.length = c.length
  rawBuffer : d.rawBuffer = c.rawBuffer

theorem Channel.SameFrame.refl (c : Channel) : c.SameFrame c := ⟨rfl, rfl, rfl⟩

theorem Channel.SameFrame.trans {c d e : Channel} (h : c.SameFrame d) (h' : d.SameFrame e) : c.SameFrame e :=
  ⟨h'.state.trans h.state, h'.length.trans h.length, h'.rawBuffer.trans h.rawBuffer⟩

/-- A TICK leaves a STOPPED channel's frame alone (40_tick_sampler.md R114, R115). -/
theorem Channel.sameFrame_tickStep {c : Channel} (h : c.state = .stopped) (cfg : Config) (smp : Sample) :
    c.SameFrame (tickStep cfg smp c) := by
  rw [tickStep_of_stopped cfg smp c (.inr h)]
  cases smp <;> constructor <;> simp [Channel.stepStopped, h]

theorem State.sameFrame_afterTick {s : State} {k : Nat} {c : Channel} (hc : s.chans[k]? = some c)
    (hs : c.state = .stopped) (p : Pins) : ∃ d, (s.afterTick p).chans[k]? = some d ∧ c.SameFrame d := by
  unfold State.afterTick
  split
  · exact ⟨_, s.ticked_of_chan p.irIn hc, Channel.sameFrame_tickStep hs _ _⟩
  · exact ⟨c, hc, .refl c⟩

/-- An accepted word resumes channel `k`, or leaves its frame alone (20_memory.md R56). -/
theorem WordEffect.resume_or_sameFrame {w : CmdWord} {s : State} {chs : List Channel} (h : WordEffect w s chs)
    {k : Nat} {c : Channel} (hc : s.chans[k]? = some c) :
    (∃ ch, decodeCmd w = .ok (.resume ch) ∧ ch.toNat = k) ∨ ∃ d, chs[k]? = some d ∧ c.SameFrame d := by
  rcases h with ⟨-, -, rfl⟩ | ⟨i, hi, rfl | ⟨b, d, hb, rfl, hwrite⟩⟩
  · exact .inr ⟨c, hc, .refl c⟩
  · exact .inr ⟨c, hc, .refl c⟩
  · by_cases hk : (chOf w).toNat = k
    · subst hk
      obtain rfl : b = c := Option.some.inj (hb.symm.trans hc)
      obtain ⟨hlt, -⟩ := List.getElem?_eq_some_iff.mp hb
      rcases hwrite with ⟨rfl, -⟩ | ⟨en, -, rfl⟩
      · exact .inl ⟨_, hi, rfl⟩
      · exact .inr ⟨_, List.getElem?_set_self hlt, ⟨rfl, rfl, rfl⟩⟩
    · exact .inr ⟨c, (List.getElem?_set_ne hk).trans hc, .refl c⟩

theorem Pins.resumes_of_decode {p : Pins} {ch : ChanIdx} (hv : p.cmdValid = true)
    (hd : decodeCmd p.cmd = .ok (.resume ch)) : p.resumes ch.toNat = true := by
  simp [Pins.resumes, hd, hv]

/-- In a cycle without reset, a STOPPED channel is resumed by an accepted command, or its frame is left alone. -/
theorem step_resumes_or_sameFrame {s t : State} (hr : s.pins.rst = false) (hstep : step s = .next t) {k : Nat}
    {c : Channel} (hc : s.chans[k]? = some c) (hs : c.state = .stopped) :
    (s.cmdReady = true ∧ s.pins.resumes k = true) ∨ ∃ d, t.chans[k]? = some d ∧ c.SameFrame d := by
  rcases step_cases (legal_of_step_next hstep) with
    ⟨hrst, -⟩ | ⟨-, -, ht⟩ | ⟨-, hvalid, hready, chs, r, ht, heffect⟩
  · exact absurd (hrst.symm.trans hr) Bool.noConfusion
  · obtain rfl := Host.Outcome.next.inj (ht.symm.trans hstep)
    exact .inr (State.sameFrame_afterTick (s := s.beginCycle) hc hs s.pins)
  · obtain rfl := Host.Outcome.next.inj (ht.symm.trans hstep)
    rcases heffect.resume_or_sameFrame hc with ⟨ch, hdecode, rfl⟩ | ⟨d, hd, hcd⟩
    · exact .inl ⟨hready, Pins.resumes_of_decode hvalid hdecode⟩
    · obtain ⟨e, he, hde⟩ :=
        State.sameFrame_afterTick (s := s.beginCycle.replied chs r) hd (hcd.state.trans hs) s.pins
      exact .inr ⟨e, he, hcd.trans hde⟩

/-- Settles O57: a step that does not accept a RESUME for the channel keeps its state and its length. -/
theorem onlyResumeLeavesStopped : Obligations.OnlyResumeLeavesStopped := by
  unfold Obligations.OnlyResumeLeavesStopped
  intro s t k c d hr hstep hc hd hs hchanged
  rcases step_resumes_or_sameFrame hr hstep hc hs with hresume | ⟨e, he, hce⟩
  · exact hresume
  · obtain rfl : e = d := Option.some.inj (he.symm.trans hd)
    rcases hchanged with hstate | hlength
    · exact absurd (hce.state.trans hs) hstate
    · exact absurd hce.length hlength

/-! ## The invariant of a channel -/

/-- The relation of R34 reads `state` and `length` alone. -/
theorem Channel.stateLengthInv_congr {cfg : Config} {c d : Channel} (hs : d.state = c.state)
    (hl : d.length = c.length) : d.stateLengthInv cfg ↔ c.stateLengthInv cfg := by
  simp only [Channel.stateLengthInv, hs, hl]

/-- Where R34 lets the channel be STOPPED: an even length, or a full buffer. -/
theorem Channel.Inv.even_or_full {cfg : Config} {c : Channel} (h : c.Inv cfg)
    (hstop : cfg.capacity ≤ c.length.toNat ∨ c.state = .stopped ∨ c.state = .readingSpace) :
    c.length.toNat % 2 = 0 ∨ c.length.toNat = cfg.capacity := by
  have hinv := h.stateLength
  rcases hstop with hfull | hs | hs
  · exact .inr (Nat.le_antisymm h.length_le hfull)
  · simpa only [Channel.stateLengthInv, hs] using hinv
  · simp only [Channel.stateLengthInv, hs] at hinv
    exact .inl hinv.1

theorem Channel.reset_inv (cfg : Config) : (Channel.reset cfg).Inv cfg where
  elapsed_lt := Nat.two_pow_pos _
  raw_wf := ⟨List.length_replicate, fun v hv => by
    rw [List.eq_of_mem_replicate hv]
    exact Nat.two_pow_pos _⟩
  length_le := Nat.zero_le _
  stateLength := rfl

section
variable {nch : Nat} {cfg : Config} (hlegal : configLegal nch cfg = true)
include hlegal

theorem resetChannel_inv (n k : Nat) : (resetChannel cfg n k).Inv cfg where
  elapsed_lt := Nat.two_pow_pos _
  raw_wf := ⟨by simp, fun v hv => by
    obtain ⟨-, -, -, hwidth, -⟩ := configLegal_bounds hlegal
    obtain ⟨i, -, rfl⟩ := List.mem_map.mp hv
    exact truncTicks_lt cfg hwidth _⟩
  length_le := Nat.zero_le _
  stateLength := rfl

/-- The count of 40_tick_sampler.md R103 and the blink keep the invariant. -/
theorem Channel.Inv.counted {c : Channel} (h : c.Inv cfg) (smp : Sample) : (c.counted cfg smp).Inv cfg where
  elapsed_lt := by
    obtain ⟨-, -, -, hwidth, -⟩ := configLegal_bounds hlegal
    rw [Channel.counted_elapsedTicks]
    exact inc_lt cfg hwidth c.elapsedTicks
  raw_wf := by rw [Channel.counted_rawBuffer]; exact h.raw_wf
  length_le := by rw [Channel.counted_length]; exact h.length_le
  stateLength :=
    (Channel.stateLengthInv_congr (Channel.counted_state ..) (Channel.counted_length ..)).mpr h.stateLength

theorem Channel.Inv.startFrame {c : Channel} (h : c.Inv cfg) : c.startFrame.Inv cfg where
  elapsed_lt := Nat.two_pow_pos _
  raw_wf := rawWf_set h.raw_wf 0 h.elapsed_lt
  length_le := by
    obtain ⟨-, -, -, -, hcap, -⟩ := configLegal_bounds hlegal
    exact Nat.le_of_succ_le hcap
  stateLength := ⟨rfl, le_refl 1⟩

/-- The 9 bits of `length` hold every length up to CAPACITY. -/
theorem Channel.toNat_length_succ {c : Channel} (hlt : c.length.toNat < cfg.capacity) :
    (c.length + 1).toNat = c.length.toNat + 1 := by
  obtain ⟨-, -, -, -, -, hcap, -⟩ := configLegal_bounds hlegal
  rw [BitVec.toNat_add]
  exact Nat.mod_eq_of_lt (show c.length.toNat + 1 < 2 ^ 9 by omega)

/-- A recorded run (40_tick_sampler.md R110, R111) makes an odd length even or an even one odd, as the reading state it
moves on to asks. -/
theorem Channel.Inv.record {c : Channel} (h : c.Inv cfg) (hlt : c.length.toNat < cfg.capacity) {st : ChState}
    (hturn : c.state = .readingMark ∧ st = .readingSpace ∨ c.state = .readingSpace ∧ st = .readingMark) :
    (c.record st).Inv cfg where
  elapsed_lt := Nat.two_pow_pos _
  raw_wf := rawWf_set h.raw_wf _ h.elapsed_lt
  length_le := by rw [Channel.record_length, Channel.toNat_length_succ hlegal hlt]; exact hlt
  stateLength := by
    have hrel := h.stateLength
    have hsucc := Channel.toNat_length_succ hlegal hlt
    rcases hturn with ⟨hs, rfl⟩ | ⟨hs, rfl⟩ <;>
      simp only [Channel.stateLengthInv, hs, Channel.record_state, Channel.record_length, hsucc] at hrel ⊢ <;> omega

end

section
variable {cfg : Config} {c : Channel} (h : c.Inv cfg)
include h

theorem Channel.Inv.clearElapsed : c.clearElapsed.Inv cfg :=
  ⟨Nat.two_pow_pos _, h.raw_wf, h.length_le, h.stateLength⟩

theorem Channel.Inv.stop (hlen : c.length.toNat % 2 = 0 ∨ c.length.toNat = cfg.capacity) :
    Channel.Inv cfg { c with state := .stopped } :=
  ⟨h.elapsed_lt, h.raw_wf, h.length_le, hlen⟩

/-- RESUME's write (41_host_commands.md R132). -/
theorem Channel.Inv.resume : Channel.Inv cfg { c with state := .idle, length := 0 } :=
  ⟨h.elapsed_lt, h.raw_wf, Nat.zero_le _, rfl⟩

/-- SETBLINK's write (41_host_commands.md R134). -/
theorem Channel.Inv.setblink (en : Bool) : Channel.Inv cfg { c with blinkEn := en } :=
  ⟨h.elapsed_lt, h.raw_wf, h.length_le, h.stateLength⟩

end

/-- A TICK keeps the invariant of a channel, through each ending of 40_tick_sampler.md R120. -/
theorem Channel.Inv.tickStep {nch : Nat} {cfg : Config} (hlegal : configLegal nch cfg = true) {c : Channel}
    (h : c.Inv cfg) (smp : Sample) : (tickStep cfg smp c).Inv cfg := by
  have he := h.counted hlegal smp
  have hstop : cfg.capacity ≤ c.length.toNat ∨ c.state = .stopped ∨ c.state = .readingSpace →
      Channel.Inv cfg { c.counted cfg smp with state := .stopped } := fun hc =>
    he.stop (by rw [Channel.counted_length]; exact h.even_or_full hc)
  rcases tickStep_cases cfg smp c with ⟨hd, hc⟩ | ⟨hd, hc⟩ | ⟨hd, -⟩ | ⟨hd, -⟩ | ⟨hd, -⟩ | ⟨hd, hlt, hs, -⟩ |
    ⟨hd, hlt, hs, -⟩ <;> rw [hd]
  · exact hstop (hc.imp_right (Or.imp_right And.left))
  · exact (hstop (hc.imp_right .inl)).clearElapsed
  · exact he
  · exact he.clearElapsed
  · exact he.startFrame hlegal
  · exact he.record hlegal (by rwa [Channel.counted_length]) (.inl ⟨by rwa [Channel.counted_state], rfl⟩)
  · exact he.record hlegal (by rwa [Channel.counted_length]) (.inr ⟨by rwa [Channel.counted_state], rfl⟩)

/-! ## The invariant of the block -/

theorem State.resetOf_legal {nch : Nat} {cfg : Config} (hlegal : configLegal nch cfg = true) :
    (State.resetOf nch cfg).legal = true := by
  rw [State.legal, State.resetOf_nch]
  exact hlegal

theorem State.legal_of_kept {s t : State} (h : s.legal = true) (hcfg : t.cfg = s.cfg) (hnch : t.nch = s.nch) :
    t.legal = true :=
  (State.legal_congr hcfg hnch).trans h

theorem State.resetOf_inv {nch : Nat} {cfg : Config} (hlegal : configLegal nch cfg = true) (ins : List Pins) :
    State.Inv { State.resetOf nch cfg with inputs := ins } where
  legal := State.legal_of_kept (State.resetOf_legal hlegal) rfl rfl
  chans := fun c hc => by
    rw [State.mem_resetOf hc]
    exact Channel.reset_inv cfg

section
variable {s : State} (h : s.Inv)
include h

theorem State.Inv.resetCycle : s.resetCycle.Inv where
  legal := State.legal_of_kept h.legal rfl s.resetCycle_nch
  chans := fun c hc => by
    obtain ⟨k, -, rfl⟩ := List.mem_map.mp hc
    exact resetChannel_inv h.legal _ k

theorem State.Inv.beginCycle : s.beginCycle.Inv := ⟨h.legal, h.chans⟩

theorem State.Inv.ticked (irIn : Levels) : (s.ticked irIn).Inv where
  legal := State.legal_of_kept h.legal rfl (s.ticked_nch irIn)
  chans := fun d hd => by
    obtain ⟨smp, c, hc, rfl⟩ := s.mem_ticked irIn hd
    exact (h.chans c hc).tickStep h.legal smp

theorem State.Inv.afterTick (p : Pins) : (s.afterTick p).Inv := by
  unfold State.afterTick
  split
  · exact h.ticked p.irIn
  · exact h

/-- An accepted word leaves channels that meet the invariant. -/
theorem State.Inv.wordEffect {w : CmdWord} {chs : List Channel} (heffect : WordEffect w s chs) :
    ∀ c ∈ chs, c.Inv s.cfg := by
  rcases heffect with ⟨-, -, rfl⟩ | ⟨i, -, rfl | ⟨b, d, hb, rfl, hwrite⟩⟩
  · exact h.chans
  · exact h.chans
  · have hbinv := h.chans b (List.mem_of_getElem? hb)
    have hdinv : d.Inv s.cfg := by
      rcases hwrite with ⟨-, rfl⟩ | ⟨en, -, rfl⟩
      · exact hbinv.resume
      · exact hbinv.setblink en
    intro c hc
    rcases List.mem_or_eq_of_mem_set hc with hmem | rfl
    · exact h.chans c hmem
    · exact hdinv

theorem State.Inv.replied {w : CmdWord} {chs : List Channel} (heffect : WordEffect w s chs) (r : Response) :
    (s.replied chs r).Inv where
  legal := State.legal_of_kept h.legal rfl heffect.length_eq
  chans := h.wordEffect heffect

/-- From a state that meets the invariant a step goes on, keeps the invariant, and keeps the parameters. -/
theorem State.Inv.step : ∃ t, step s = .next t ∧ t.Inv ∧ t.cfg = s.cfg := by
  rcases step_cases h.legal with ⟨-, ht⟩ | ⟨-, -, ht⟩ | ⟨-, -, -, chs, r, ht, heffect⟩
  · exact ⟨_, ht, h.resetCycle, rfl⟩
  · exact ⟨_, ht, h.beginCycle.afterTick s.pins, by simp⟩
  · exact ⟨_, ht, (h.beginCycle.replied heffect r).afterTick s.pins, by simp⟩

end

/-- From a state that meets the invariant every run goes on, to a state that meets it under the same parameters. -/
theorem State.Inv.run {s : State} (h : s.Inv) (n : Nat) :
    ∃ t, Host.Core.run core n s = .next t ∧ t.Inv ∧ t.cfg = s.cfg := by
  refine run_induction (P := fun u => u.Inv ∧ u.cfg = s.cfg) ?_ n s ⟨h, rfl⟩
  intro u ⟨hu, hcfg⟩
  obtain ⟨t, ht, hinv, hkept⟩ := hu.step
  exact ⟨t, ht, hinv, hkept.trans hcfg⟩

/-- Settles O55: the run from reset keeps the block's invariant, whose R33 and R34 the statement writes out state by
state. -/
theorem reachableChannelsKeepLengthAndState : Obligations.ReachableChannelsKeepLengthAndState := by
  unfold Obligations.ReachableChannelsKeepLengthAndState
  intro nch cfg ins n hlegal
  obtain ⟨t, ht, hinv, hcfg⟩ := (State.resetOf_inv hlegal ins).run n
  obtain rfl : t.cfg = cfg := hcfg
  refine ⟨t, ht, fun c hc => ?_⟩
  have hc := hinv.chans c hc
  have hrel := hc.stateLength
  refine ⟨hc.length_le, ?_, ?_, ?_, ?_⟩ <;> intro hs <;> simp only [Channel.stateLengthInv, hs] at hrel
  · exact BitVec.eq_of_toNat_eq hrel
  · exact hrel
  · exact hrel
  · exact hrel

end Sys2Proof.Machine
end

section
/-! Proofs of the statements on memory (20_memory.md): a command that only reads changes nothing (R56), and a STOPPED
frame stays as it is until the host gives it back (R58). -/

namespace Sys2Proof.Machine

/-! ## DECODE reads the frame alone -/

section
variable (cfg : Config) {c d : Channel} (hl : d.length = c.length)
  (hraw : ∀ i, 1 ≤ i → i < c.length.toNat → d.raw i = c.raw i)
include hl hraw

/-- Each iteration reads a pair of entries below `length`. -/
theorem grammarLoop_congr (fuel : Nat) : ∀ {off : Nat} (acc : DataWord) (b : Nat), 1 ≤ off →
    grammarLoop cfg d fuel off acc b = grammarLoop cfg c fuel off acc b := by
  induction fuel with
  | zero => exact fun _ _ _ => rfl
  | succ fuel ih =>
    intro off acc b hoff
    rw [grammarLoop_succ, grammarLoop_succ, hl]
    by_cases hpair : off + 1 < c.length.toNat
    · rw [hraw off hoff (by omega), hraw (off + 1) (by omega) hpair]
      simp only [ih _ _ (show 1 ≤ off + 2 by omega)]
    · simp only [hpair, false_and, if_false]

theorem grammar_congr : grammar cfg d = grammar cfg c := by
  unfold grammar
  rw [hl]
  by_cases hshort : c.length.toNat < 2 * cfg.nBits + 2
  · rw [if_pos hshort, if_pos hshort]
  · rw [hraw 1 (le_refl 1) (by omega), grammarLoop_congr cfg hl hraw _ 0 0 (by omega)]

/-- Each iteration reads two entries below `length`. -/
theorem hashLoop_congr (fuel : Nat) : ∀ {i : Nat} (h : DataWord), 1 ≤ i →
    hashLoop cfg d fuel i h = hashLoop cfg c fuel i h := by
  induction fuel with
  | zero => exact fun _ _ => rfl
  | succ fuel ih =>
    intro i h hi
    rw [hashLoop_succ, hashLoop_succ, hl]
    by_cases hin : i + 2 < c.length.toNat
    · rw [hraw i hi (by omega), hraw (i + 2) (by omega) hin, ih _ (by omega)]
    · rw [if_neg hin, if_neg hin]

theorem hash_congr : hash cfg d = hash cfg c := by
  rw [hash, hash, hl, hashLoop_congr cfg hl hraw _ _ (le_refl 1)]

/-- DECODE's answer is a function of `state`, `length` and the entries from 1 up to `length` (10_state.md R24). -/
theorem decodeResponse_congr (hs : d.state = c.state) : decodeResponse cfg d = decodeResponse cfg c := by
  rw [decodeResponse, decodeResponse, hs, hl, grammar_congr cfg hl hraw, hash_congr cfg hl hraw]

end

/-! ## One frame is read in one way -/

section
variable {c d : Channel} (h : c.SameFrame d)
include h

theorem Channel.SameFrame.raw_eq (i : Nat) : d.raw i = c.raw i := by
  rw [Channel.raw, Channel.raw, h.rawBuffer]

theorem Channel.SameFrame.entry?_eq (idx : BitVec 8) : d.entry? idx = c.entry? idx := by
  rw [Channel.entry?, Channel.entry?, h.length, h.raw_eq]

theorem Channel.SameFrame.decodeResponse_eq (cfg : Config) : decodeResponse cfg d = decodeResponse cfg c :=
  decodeResponse_congr cfg h.length (fun i _ _ => h.raw_eq i) h.state

end

/-! ## The handoff -/

/-- A cycle of a legal configuration goes on: the parameters and the number of channels are kept, and the listed pins
are taken (60_exceptions.md R200). -/
theorem step_next_of_legal {s : State} (h : s.legal = true) :
    ∃ t, step s = .next t ∧ t.cfg = s.cfg ∧ t.nch = s.nch ∧ t.inputs = s.inputs.tail := by
  rcases step_cases h with ⟨-, ht⟩ | ⟨-, -, ht⟩ | ⟨-, -, -, chs, r, ht, heffect⟩
  · exact ⟨_, ht, rfl, s.resetCycle_nch, rfl⟩
  · exact ⟨_, ht, by simp, by simp, by simp⟩
  · exact ⟨_, ht, by simp, (State.afterTick_nch ..).trans heffect.length_eq, by simp⟩

/-- No listed cycle resets the block or offers a RESUME for channel `k`. -/
def State.NoResetOrResume (k : Nat) (s : State) : Prop := ∀ p ∈ s.inputs, p.rst = false ∧ p.resumes k = false

theorem Pins.idle_resumes (k : Nat) : Pins.idle.resumes k = false := rfl

theorem State.NoResetOrResume.pins {k : Nat} {s : State} (h : s.NoResetOrResume k) :
    s.pins.rst = false ∧ s.pins.resumes k = false := by
  rcases s.pins_mem_or_idle with hmem | hidle
  · exact h _ hmem
  · rw [hidle]
    exact ⟨rfl, Pins.idle_resumes k⟩

theorem State.NoResetOrResume.of_tail {k : Nat} {s t : State} (h : s.NoResetOrResume k)
    (ht : t.inputs = s.inputs.tail) : t.NoResetOrResume k :=
  fun p hp => h p (List.mem_of_mem_tail (ht ▸ hp))

/-- What every cycle keeps while no reset and no RESUME comes: channel `k` holds the frame of `c`. -/
structure State.HoldsFrame (params : Config) (k : Nat) (c : Channel) (s : State) : Prop where
  legal   : s.legal = true
  cfg     : s.cfg = params
  waiting : s.NoResetOrResume k
  frame   : ∃ d, s.chans[k]? = some d ∧ c.SameFrame d

/-- Only an accepted RESUME for the channel, or a reset, would touch the frame (10_state.md R35). -/
theorem State.HoldsFrame.step {params : Config} {k : Nat} {c : Channel} (hstopped : c.state = .stopped) {s : State}
    (h : s.HoldsFrame params k c) : ∃ t, step s = .next t ∧ t.HoldsFrame params k c := by
  obtain ⟨t, ht, hcfg, hnch, hinputs⟩ := step_next_of_legal h.legal
  obtain ⟨d, hd, hcd⟩ := h.frame
  obtain ⟨hrst, hresumes⟩ := h.waiting.pins
  refine ⟨t, ht, State.legal_of_kept h.legal hcfg hnch, hcfg.trans h.cfg, h.waiting.of_tail hinputs, ?_⟩
  rcases step_resumes_or_sameFrame hrst ht hd (hcd.state.trans hstopped) with ⟨-, hresumed⟩ | ⟨e, he, hde⟩
  · exact absurd (hresumed.symm.trans hresumes) Bool.noConfusion
  · exact ⟨e, he, hcd.trans hde⟩

/-- Settles O56: the frame is held over the whole run, and what the host reads of it depends on nothing else. -/
theorem stoppedFrameIsStableUntilResume : Obligations.StoppedFrameIsStableUntilResume := by
  unfold Obligations.StoppedFrameIsStableUntilResume
  intro s k c n hlegal hc hstopped hwaiting
  have hstart : s.HoldsFrame s.cfg k c := ⟨hlegal, rfl, hwaiting, c, hc, .refl c⟩
  obtain ⟨t, ht, -, hcfg, -, d, hd, hcd⟩ := run_induction (fun u hu => State.HoldsFrame.step hstopped hu) n s hstart
  refine ⟨t, d, ht, hd, hcd.state.trans hstopped, hcd.length, hcd.rawBuffer, ?_, hcd.entry?_eq⟩
  rw [hcfg]
  exact hcd.decodeResponse_eq s.cfg

/-! ## Commands that only read -/

/-- RESUME and SETBLINK alone write their channel (20_memory.md R56). -/
theorem writtenOn_eq_self {i : Instr} (hresume : ∀ ch, i ≠ .resume ch) (hblink : ∀ ch en, i ≠ .setblink ch en)
    (c : Channel) : writtenOn c i = c := by
  cases i with
  | resume ch => exact absurd rfl (hresume ch)
  | setblink ch en => exact absurd rfl (hblink ch en)
  | _ => rfl

/-- Any other command on a channel that exists answers and changes nothing else (20_memory.md R56). -/
theorem exec_read {i : Instr} {ch : ChanIdx} (hi : i.channel? = some ch) (hresume : ∀ k, i ≠ .resume k)
    (hblink : ∀ k en, i ≠ .setblink k en) {s : State} {c : Channel} (hc : s.chans[ch.toNat]? = some c) :
    exec i s = .next (s.withResponse (replyOn s.cfg c i)) := by
  rw [exec_command_on hi hc, writtenOn_eq_self hresume hblink, State.setChan_self hc]

/-- Settles O30: the response is BAD_CHANNEL, or the one the channel and the parameters fix. -/
theorem readsHaveNoSideEffects : Obligations.ReadsHaveNoSideEffects := by
  unfold Obligations.ReadsHaveNoSideEffects
  intro s i ch hi hresume hblink
  cases hc : s.chans[ch.toNat]? with
  | none =>
    refine ⟨.bare .badChannel, fun u hchans _ => ?_⟩
    exact ⟨_, exec_command_missing hi (hchans ▸ hc), u.answered_withResponse _⟩
  | some c =>
    refine ⟨replyOn s.cfg c i, fun u hchans hcfg => ?_⟩
    rw [← hcfg]
    exact ⟨_, exec_read hi hresume hblink (hchans ▸ hc), u.answered_withResponse _⟩

end Sys2Proof.Machine
end

section
/-! Proofs of the statements on the encoding (30_encoding.md): the ILLEGAL words (R78), the one response of every
accepted word (R80), and the words and level vectors that written lines stand for (R84 to R86). -/

namespace Sys2Proof

/-! ## The decoder, by opcode -/

theorem noOperand_of_zero {imm : BitVec 8} (h : imm.toNat = 0) (i : Instr) : noOperand imm i = .ok i :=
  if_pos (BitVec.eq_of_toNat_eq h)

theorem noOperand_of_ne_zero {imm : BitVec 8} (h : imm.toNat ≠ 0) (i : Instr) :
    noOperand imm i = .error .reservedOperandBits :=
  if_neg fun h0 => h (congrArg BitVec.toNat h0)

/-- `imm8[7:1]` is `imm8 / 2`, which is 0 below 2. -/
theorem enableOperand_of_lt_two {w : CmdWord} (h : w.toNat % 2 ^ 8 < 2) (f : Bool → Instr) :
    enableOperand (immOf w) f = .ok (f ((immOf w).getLsbD 0)) :=
  if_pos (BitVec.eq_of_toNat_eq (y := 0) ((immOf_high_toNat w).trans (Nat.div_eq_of_lt h)))

theorem enableOperand_of_two_le {w : CmdWord} (h : 2 ≤ w.toNat % 2 ^ 8) (f : Bool → Instr) :
    enableOperand (immOf w) f = .error .reservedOperandBits := by
  refine if_neg fun h0 => ?_
  have hhalf : w.toNat % 2 ^ 8 / 2 = 0 := (immOf_high_toNat w).symm.trans (congrArg BitVec.toNat h0)
  omega

/-- The four kinds of opcode (30_encoding.md R77): reserved, SETBLINK, RDRAW, and those that reserve all of `imm8`. -/
theorem decodeCmd_cases (w : CmdWord) :
    (8 ≤ (opOf w).toNat ∧ decodeCmd w = .error .reservedOpcode) ∨
    ((opOf w).toNat = 3 ∧ decodeCmd w = enableOperand (immOf w) (.setblink (chOf w))) ∨
    ((opOf w).toNat = 7 ∧ decodeCmd w = .ok (.rdraw (chOf w) (immOf w))) ∨
    ((opOf w).toNat < 8 ∧ (opOf w).toNat ≠ 3 ∧ (opOf w).toNat ≠ 7 ∧ ∃ i, decodeCmd w = noOperand (immOf w) i) := by
  unfold decodeCmd
  split
  case h_4 hop => exact .inr (.inl ⟨hop, rfl⟩)
  case h_8 hop => exact .inr (.inr (.inl ⟨hop, rfl⟩))
  case h_9 => exact .inl ⟨by grind, rfl⟩
  all_goals exact .inr (.inr (.inr ⟨by omega, by omega, by omega, _, rfl⟩))

/-! ## ILLEGAL words -/

/-- The reserved words of 30_encoding.md R78, by the word's number. -/
def ReservedWord (w : CmdWord) : Prop :=
  8 ≤ w.toNat / 2 ^ 12 ∨ (w.toNat / 2 ^ 12 = 3 ∧ 2 ≤ w.toNat % 2 ^ 8) ∨
    (w.toNat / 2 ^ 12 ≠ 3 ∧ w.toNat / 2 ^ 12 ≠ 7 ∧ w.toNat % 2 ^ 8 ≠ 0)

theorem decodeCmd_of_reservedWord {w : CmdWord} (h : ReservedWord w) : ∃ e, decodeCmd w = .error e := by
  unfold ReservedWord at h
  rcases decodeCmd_cases w with ⟨-, hd⟩ | ⟨hop, hd⟩ | ⟨hop, -⟩ | ⟨hlt, hne3, hne7, i, hd⟩
  · exact ⟨_, hd⟩
  · rw [opOf_toNat] at hop
    exact ⟨_, hd.trans (enableOperand_of_two_le (by omega) _)⟩
  · rw [opOf_toNat] at hop
    omega
  · rw [opOf_toNat] at hlt hne3 hne7
    have himm : (immOf w).toNat ≠ 0 := by rw [immOf_toNat]; omega
    exact ⟨_, hd.trans (noOperand_of_ne_zero himm i)⟩

theorem decodeCmd_of_not_reservedWord {w : CmdWord} (h : ¬ ReservedWord w) : ∃ i, decodeCmd w = .ok i := by
  unfold ReservedWord at h
  rcases decodeCmd_cases w with ⟨hop, -⟩ | ⟨hop, hd⟩ | ⟨-, hd⟩ | ⟨hlt, hne3, hne7, i, hd⟩
  · rw [opOf_toNat] at hop
    omega
  · rw [opOf_toNat] at hop
    exact ⟨_, hd.trans (enableOperand_of_lt_two (by omega) _)⟩
  · exact ⟨_, hd⟩
  · rw [opOf_toNat] at hlt hne3 hne7
    have himm : (immOf w).toNat = 0 := by rw [immOf_toNat]; omega
    exact ⟨_, hd.trans (noOperand_of_zero himm i)⟩

/-! ## A command word as a number -/

/-- `{op, ch, imm8}` (30_encoding.md R75). -/
theorem cmdWord_eq_ofNat (op : BitVec 4) (ch : ChanIdx) (imm : BitVec 8) :
    cmdWord op ch imm = BitVec.ofNat 16 (op.toNat * 0x1000 + ch.toNat * 0x100 + imm.toNat) := by
  apply BitVec.eq_of_toNat_eq
  have hop := op.isLt
  have hch := ch.isLt
  have himm := imm.isLt
  rw [cmdWord, BitVec.toNat_append, BitVec.toNat_append, ← Nat.shiftLeft_add_eq_or_of_lt himm,
    ← Nat.shiftLeft_add_eq_or_of_lt hch, Nat.shiftLeft_eq, Nat.shiftLeft_eq, BitVec.toNat_ofNat]
  omega

end Sys2Proof

namespace Sys2Proof.Machine

/-- Settles O8: the reserved words are those the decoder refuses, and a refused word is answered ILLEGAL. -/
theorem illegalWordsAreExactlyTheReservedOnes : Obligations.IllegalWordsAreExactlyTheReservedOnes := by
  unfold Obligations.IllegalWordsAreExactlyTheReservedOnes
  intro w
  refine ⟨fun (hreserved : ReservedWord w) s => ?_, decodeCmd_of_not_reservedWord⟩
  obtain ⟨e, he⟩ := decodeCmd_of_reservedWord hreserved
  exact ⟨_, acceptWord_of_error he s, s.answered_withResponse _⟩

/-- Settles O19: a cycle that accepts a word ends in the word's reply, which the cycle's TICK keeps. -/
theorem everyAcceptedWordGetsAResponse : Obligations.EveryAcceptedWordGetsAResponse := by
  unfold Obligations.EveryAcceptedWordGetsAResponse
  intro s hlegal hrst hvalid hready
  obtain ⟨chs, r, hreply, -⟩ := acceptWord_cases s.pins.cmd s.beginCycle
  have hstep : step s = .next ((s.beginCycle.replied chs r).afterTick s.pins) := by
    rw [step_of_run hlegal hrst, hready, commandPhase_of_accepted hvalid, hreply, andThen_next, tickPhase_eq]
  exact ⟨_, r, _, hstep, State.afterTick_outstanding _ _⟩

namespace Asm

/-! ## Written commands -/

theorem chan?_of_le {n : Nat} (h : n ≤ 15) : chan? n = some (BitVec.ofNat 4 n) := if_pos h

theorem chan?_of_gt {n : Nat} (h : ¬ n ≤ 15) : chan? n = none := if_neg h

theorem Cmd.word?_of_none {c : Cmd} (h : c.instr? = none) : c.word? = none := by
  rw [Cmd.word?, h]

/-- A written command with nothing else to check is refused for its channel alone, and its word has the fields shown
(30_encoding.md R84, R86). -/
theorem Cmd.word?_of_instr? {c : Cmd} {n : Nat} {f : ChanIdx → Instr} {op : BitVec 4} {imm : BitVec 8}
    (hi : c.instr? = (chan? n).map f) (he : ∀ ch, encode 0 (f ch) = .cmd (cmdWord op ch imm)) :
    c.word? = if n ≤ 15 then some (BitVec.ofNat 16 (op.toNat * 0x1000 + n * 0x100 + imm.toNat)) else none := by
  split
  · next hn =>
    have hch : (BitVec.ofNat 4 n).toNat = n := by rw [BitVec.toNat_ofNat]; omega
    rw [Cmd.word?, hi, chan?_of_le hn, Option.map_some]
    simp only [he, cmdWord_eq_ofNat, hch]
  · next hn => exact Cmd.word?_of_none (by rw [hi, chan?_of_gt hn, Option.map_none])

/-- A written command whose operand is checked too: `operand` is its number as written (30_encoding.md R86). -/
theorem Cmd.word?_of_checked {c : Cmd} {n operand : Nat} {f : ChanIdx → Instr} {op : BitVec 4} {imm : BitVec 8}
    {inRange : Prop} [Decidable inRange] (hi : c.instr? = if inRange then (chan? n).map f else none)
    (he : ∀ ch, encode 0 (f ch) = .cmd (cmdWord op ch imm)) (himm : inRange → imm.toNat = operand) :
    c.word? = if n ≤ 15 ∧ inRange then some (BitVec.ofNat 16 (op.toNat * 0x1000 + n * 0x100 + operand)) else none := by
  by_cases h : inRange
  · rw [Cmd.word?_of_instr? (hi.trans (if_pos h)) he, himm h]
    simp only [h, and_true]
  · rw [Cmd.word?_of_none (hi.trans (if_neg h)), if_neg fun hn => h hn.2]

theorem Cmd.word?_setblink (n e : Nat) : (Cmd.setblink n e).word? =
    if n ≤ 15 ∧ e ≤ 1 then some (BitVec.ofNat 16 (0x3000 + n * 256 + e)) else none := by
  have himm : e ≤ 1 → (if decide (e = 1) then (1 : BitVec 8) else 0).toNat = e := fun he => by
    interval_cases e <;> rfl
  exact Cmd.word?_of_checked (op := 3) rfl (fun _ => rfl) himm

theorem Cmd.word?_rdraw (n idx : Nat) : (Cmd.rdraw n idx).word? =
    if n ≤ 15 ∧ idx ≤ 255 then some (BitVec.ofNat 16 (0x7000 + n * 256 + idx)) else none := by
  have himm : idx ≤ 255 → (BitVec.ofNat 8 idx).toNat = idx := fun h => by rw [BitVec.toNat_ofNat]; omega
  exact Cmd.word?_of_checked (op := 7) rfl (fun _ => rfl) himm

/-- Settles O10: the channel check and the operand's check, and the fields of the word as a number. -/
theorem assemblerRefusesExactlyTheOperandsOutOfRange : Obligations.AssemblerRefusesExactlyTheOperandsOutOfRange := by
  unfold Obligations.AssemblerRefusesExactlyTheOperandsOutOfRange
  refine ⟨fun n => ?_, fun n => ?_, fun n => ?_, Cmd.word?_setblink, fun n => ?_, fun n => ?_, fun n => ?_,
    Cmd.word?_rdraw⟩
  · simpa using Cmd.word?_of_instr? (c := .nop n) rfl fun _ => rfl
  · exact Cmd.word?_of_instr? (c := .resume n) rfl fun _ => rfl
  · exact Cmd.word?_of_instr? (c := .decode n) rfl fun _ => rfl
  · exact Cmd.word?_of_instr? (c := .rdstatus n) rfl fun _ => rfl
  · exact Cmd.word?_of_instr? (c := .rdlen n) rfl fun _ => rfl
  · exact Cmd.word?_of_instr? (c := .rdelapsed n) rfl fun _ => rfl

/-! ## Written TICKs -/

/-- Levels 0 and 1 assemble to the number that has one of them in each bit, channel 0's lowest. -/
theorem levelBits_of_le_one : ∀ {ls : List Nat}, (∀ l ∈ ls, l ≤ 1) →
    ∃ n, levelBits ls = some n ∧ n < 2 ^ ls.length ∧ ∀ k l, ls[k]? = some l → n.testBit k = decide (l = 1)
  | [], _ => ⟨0, rfl, Nat.one_pos, nofun⟩
  | b :: ls, h => by
    obtain ⟨hb, hls⟩ := List.forall_mem_cons.mp h
    obtain ⟨n, hn, hlt, hbits⟩ := levelBits_of_le_one hls
    refine ⟨b + 2 * n, by rw [levelBits, if_pos hb, hn, Option.map_some], ?_, fun k l hk => ?_⟩
    · rw [List.length_cons, Nat.pow_succ]
      omega
    · cases k with
      | zero =>
        obtain rfl : b = l := Option.some.inj hk
        rw [Nat.testBit_zero]
        exact decide_eq_decide.mpr (by omega)
      | succ k =>
        have hhalf : (b + 2 * n) / 2 = n := by omega
        rw [Nat.testBit_succ, hhalf]
        exact hbits k l hk

/-- TICK.M drives MARK_LEVEL (30_encoding.md R85). -/
theorem Tick.irIn?_mark_one (ml : Bool) : ∃ v, Tick.mark.irIn? 1 ml = some v ∧ levelOf v 0 = ml := by
  cases ml <;> exact ⟨_, rfl, rfl⟩

/-- TICK.S drives the opposite of MARK_LEVEL (30_encoding.md R85). -/
theorem Tick.irIn?_space_one (ml : Bool) : ∃ v, Tick.space.irIn? 1 ml = some v ∧ levelOf v 0 = !ml := by
  cases ml <;> exact ⟨_, rfl, rfl⟩

/-- One level per channel gives a well-formed TICK with those levels (30_encoding.md R84). -/
theorem Tick.irIn?_levels {nch : Nat} (ml : Bool) {ls : List Nat} (hnch : nch ≤ 16) (hlen : ls.length = nch)
    (hls : ∀ l ∈ ls, l ≤ 1) : ∃ v, (Tick.levels ls).irIn? nch ml = some v ∧ (Instr.tick v).wellFormed nch = true ∧
      ∀ k l, ls[k]? = some l → levelOf v k = decide (l = 1) := by
  obtain ⟨n, hn, hlt, hbits⟩ := levelBits_of_le_one hls
  rw [hlen] at hlt
  have hfits : n < 2 ^ 16 := lt_of_lt_of_le hlt (Nat.pow_le_pow_right (by omega) hnch)
  have hv : (BitVec.ofNat 16 n).toNat = n := by rw [BitVec.toNat_ofNat, Nat.mod_eq_of_lt hfits]
  refine ⟨BitVec.ofNat 16 n, by rw [Tick.irIn?, if_pos hlen, hn, Option.map_some], ?_, fun k l hk => ?_⟩
  · simpa only [Instr.wellFormed, hv, decide_eq_true_eq] using hlt
  · rw [levelOf, BitVec.getLsbD, hv]
    exact hbits k l hk

/-- Settles O11: the level vector of each written form, read back channel by channel. -/
theorem writtenTickCarriesItsLevels : Obligations.WrittenTickCarriesItsLevels := by
  unfold Obligations.WrittenTickCarriesItsLevels
  refine ⟨fun cfg => ?_, fun nch ml h => ⟨if_neg h, if_neg h⟩,
    fun nch ml ls hnch hlen hls => Tick.irIn?_levels ml hnch hlen hls⟩
  obtain ⟨m, hm, hmark⟩ := Tick.irIn?_mark_one cfg.markLevel
  obtain ⟨p, hp, hspace⟩ := Tick.irIn?_space_one cfg.markLevel
  refine ⟨m, p, hm, hp, sampleOf_of_eq hmark, sampleOf_of_ne ?_⟩
  rw [hspace]
  exact Bool.not_ne_self _

end Asm

end Sys2Proof.Machine
end

section
/-! Proofs of the statements on the tick sampler (40_tick_sampler.md): the counter (R103), the transition table (R105,
R120), the indicator (R118), cycles without a TICK (R119), and the entry recorded for a run (R116). -/

namespace Sys2Proof.Machine

/-! ## The counter -/

theorem inc_toNat_of_wrap {cfg : Config} (hw : cfg.tickW ≤ 32) (hmode : cfg.cntMode = .wrap) (x : Ticks) :
    (inc cfg x).toNat = (x.toNat + 1) % 2 ^ cfg.tickW := by
  simp only [inc, hmode]
  exact toNat_ofNat_of_lt_two_pow hw (Nat.mod_lt _ (Nat.two_pow_pos _))

theorem inc_toNat_of_saturate {cfg : Config} (hw : cfg.tickW ≤ 32) (hmode : cfg.cntMode = .saturate) (x : Ticks) :
    (inc cfg x).toNat = min (x.toNat + 1) (2 ^ cfg.tickW - 1) := by
  have hpos : 0 < 2 ^ cfg.tickW := Nat.two_pow_pos _
  simp only [inc, hmode]
  exact toNat_ofNat_of_lt_two_pow hw (by omega)

/-- Settles O46: in either mode the number computed is below 2^TICK_W, so it fits the word that holds it. -/
theorem counterIncrementWrapsOrSaturates : Obligations.CounterIncrementWrapsOrSaturates := by
  unfold Obligations.CounterIncrementWrapsOrSaturates
  intro cfg x _ hw
  exact ⟨fun hmode => inc_toNat_of_wrap hw hmode x, fun hmode => inc_toNat_of_saturate hw hmode x⟩

/-- A counter that has not reached the top of its range goes on to the next number. -/
theorem inc_ofNat {cfg : Config} (hw : cfg.tickW ≤ 32) {n : Nat} (h : n + 1 < 2 ^ cfg.tickW) :
    inc cfg (BitVec.ofNat 32 n) = BitVec.ofNat 32 (n + 1) := by
  have hn : (BitVec.ofNat 32 n).toNat = n := toNat_ofNat_of_lt_two_pow hw (by omega)
  rw [inc_eq_of_lt cfg _ (by rwa [hn]), hn]

/-! ## Cycles without a TICK -/

theorem State.afterTick_of_no_tick {p : Pins} (h : p.tick = false) (s : State) : s.afterTick p = s :=
  if_neg (by simp [h])

/-- RESUME and SETBLINK are the only words that write a channel (20_memory.md R56). -/
theorem WordEffect.chans_eq {w : CmdWord} {s : State} {chs : List Channel} (h : WordEffect w s chs)
    (hresume : ∀ ch, decodeCmd w ≠ .ok (.resume ch)) (hblink : ∀ ch en, decodeCmd w ≠ .ok (.setblink ch en)) :
    chs = s.chans := by
  rcases h with ⟨-, -, hchs⟩ | ⟨i, hi, hchs | ⟨-, -, -, -, ⟨rfl, -⟩ | ⟨en, rfl, -⟩⟩⟩
  · exact hchs
  · exact hchs
  · exact absurd hi (hresume _)
  · exact absurd hi (hblink _ en)

/-- Settles O16: such a cycle takes its pins and at most answers a word that writes no channel. -/
theorem cycleWithoutTickChangesNoChannel : Obligations.CycleWithoutTickChangesNoChannel := by
  unfold Obligations.CycleWithoutTickChangesNoChannel
  intro s hlegal hrst htick hword
  rcases step_cases hlegal with ⟨hr, -⟩ | ⟨-, -, ht⟩ | ⟨-, hvalid, hready, chs, r, ht, heffect⟩
  · exact absurd (hr.symm.trans hrst) Bool.noConfusion
  · rw [State.afterTick_of_no_tick htick] at ht
    exact ⟨_, ht, s.beginCycle_chans⟩
  · rw [State.afterTick_of_no_tick htick] at ht
    rcases hword with ⟨hresume, hblink⟩ | hnot | hnot
    · exact ⟨_, ht, heffect.chans_eq hresume hblink⟩
    · exact absurd (hvalid.symm.trans hnot) Bool.noConfusion
    · exact absurd (hready.symm.trans hnot) Bool.noConfusion

/-! ## The indicator -/

theorem sampleOf_eq_mark_iff {cfg : Config} {level : Bool} : sampleOf cfg level = .mark ↔ level = cfg.markLevel := by
  refine ⟨fun h => ?_, sampleOf_of_eq⟩
  by_contra hne
  rw [sampleOf_of_ne hne] at h
  exact Sample.noConfusion h

/-- Settles O48: the ticked state keeps all but the channels, and the step of a channel writes its indicator where it
blinks. -/
theorem tickMirrorsTheSampleWhileBlinkIsEnabled : Obligations.TickMirrorsTheSampleWhileBlinkIsEnabled := by
  unfold Obligations.TickMirrorsTheSampleWhileBlinkIsEnabled
  intro s irIn
  refine ⟨s.ticked irIn, exec_tick s irIn, rfl, rfl, rfl, rfl, fun k c hc => ?_⟩
  refine ⟨_, s.ticked_of_chan irIn hc, tickStep_blinkEn .., fun hon => ?_, fun hoff => ?_⟩
  · rw [tickStep_ledQ, if_pos hon, decide_eq_decide]
    exact sampleOf_eq_mark_iff
  · rw [tickStep_ledQ, if_neg (by simp [hoff])]

/-! ## The rows of the transition table -/

/-- The four fields that the transition table speaks of (40_tick_sampler.md R120). -/
def Channel.Holds (c : Channel) (st : ChState) (len : BitVec 9) (el : Ticks) (raw : List Ticks) : Prop :=
  c.state = st ∧ c.length = len ∧ c.elapsedTicks = el ∧ c.rawBuffer = raw

section
variable {cfg : Config} {level : Bool} {c : Channel} {st : ChState} {len : BitVec 9} {el : Ticks} {raw : List Ticks}

section
variable (h : c.Holds st len el raw) (hrow : cfg.capacity ≤ len.toNat ∨ st = .stopped)
include h hrow

/-- The guard row and the STOPPED row on a MARK (R105, R114). -/
theorem Channel.Holds.tick_stopped_mark (hl : level = cfg.markLevel) :
    (tickStep cfg (sampleOf cfg level) c).Holds .stopped len 0 raw := by
  obtain ⟨rfl, rfl, rfl, rfl⟩ := h
  rw [sampleOf_of_eq hl, tickStep_of_stopped cfg _ c hrow]
  simp [Channel.Holds, Channel.stepStopped]

/-- The guard row and the STOPPED row on a SPACE (R105, R115). -/
theorem Channel.Holds.tick_stopped_space (hl : level ≠ cfg.markLevel) :
    (tickStep cfg (sampleOf cfg level) c).Holds .stopped len (inc cfg el) raw := by
  obtain ⟨rfl, rfl, rfl, rfl⟩ := h
  rw [sampleOf_of_ne hl, tickStep_of_stopped cfg _ c hrow]
  simp [Channel.Holds, Channel.stepStopped]

end

variable (hlt : len.toNat < cfg.capacity)
include hlt

section
variable (h : c.Holds .idle len el raw)
include h

/-- R106. -/
theorem Channel.Holds.tick_idle_space (hl : level ≠ cfg.markLevel) :
    (tickStep cfg (sampleOf cfg level) c).Holds .idle len (inc cfg el) raw := by
  obtain ⟨hs, rfl, rfl, rfl⟩ := h
  rw [sampleOf_of_ne hl, tickStep_of_idle cfg _ c hlt hs]
  simp [Channel.Holds, Channel.stepIdle, hs]

/-- R107: a MARK before the gap threshold is noise. -/
theorem Channel.Holds.tick_idle_noise (hl : level = cfg.markLevel) (hgap : (inc cfg el).toNat < cfg.gapTicks) :
    (tickStep cfg (sampleOf cfg level) c).Holds .idle len 0 raw := by
  obtain ⟨hs, rfl, rfl, rfl⟩ := h
  rw [sampleOf_of_eq hl, tickStep_of_idle cfg _ c hlt hs]
  simp [Channel.Holds, Channel.stepIdle, hs, hgap]

/-- R108: a MARK at or after the gap threshold starts a frame. -/
theorem Channel.Holds.tick_idle_start (hl : level = cfg.markLevel) (hgap : cfg.gapTicks ≤ (inc cfg el).toNat) :
    (tickStep cfg (sampleOf cfg level) c).Holds .readingMark 1 0 (raw.set 0 (inc cfg el)) := by
  obtain ⟨hs, rfl, rfl, rfl⟩ := h
  rw [sampleOf_of_eq hl, tickStep_of_idle cfg _ c hlt hs]
  simp [Channel.Holds, Channel.stepIdle, Nat.not_lt.mpr hgap]

end

section
variable (h : c.Holds .readingMark len el raw)
include h

/-- R109. -/
theorem Channel.Holds.tick_readingMark_mark (hl : level = cfg.markLevel) :
    (tickStep cfg (sampleOf cfg level) c).Holds .readingMark len (inc cfg el) raw := by
  obtain ⟨hs, rfl, rfl, rfl⟩ := h
  rw [sampleOf_of_eq hl, tickStep_of_readingMark cfg _ c hlt hs]
  simp [Channel.Holds, Channel.stepReadingMark, hs]

/-- R110. -/
theorem Channel.Holds.tick_readingMark_space (hl : level ≠ cfg.markLevel) :
    (tickStep cfg (sampleOf cfg level) c).Holds .readingSpace (len + 1) 0 (raw.set len.toNat (inc cfg el)) := by
  obtain ⟨hs, rfl, rfl, rfl⟩ := h
  rw [sampleOf_of_ne hl, tickStep_of_readingMark cfg _ c hlt hs]
  simp [Channel.Holds, Channel.stepReadingMark]

end

section
variable (h : c.Holds .readingSpace len el raw)
include h

/-- R111. -/
theorem Channel.Holds.tick_readingSpace_mark (hl : level = cfg.markLevel) :
    (tickStep cfg (sampleOf cfg level) c).Holds .readingMark (len + 1) 0 (raw.set len.toNat (inc cfg el)) := by
  obtain ⟨hs, rfl, rfl, rfl⟩ := h
  rw [sampleOf_of_eq hl, tickStep_of_readingSpace cfg _ c hlt hs]
  simp [Channel.Holds, Channel.stepReadingSpace]

/-- R112: a SPACE beyond the gap threshold ends the frame. -/
theorem Channel.Holds.tick_readingSpace_end (hl : level ≠ cfg.markLevel) (hgap : cfg.gapTicks < (inc cfg el).toNat) :
    (tickStep cfg (sampleOf cfg level) c).Holds .stopped len (inc cfg el) raw := by
  obtain ⟨hs, rfl, rfl, rfl⟩ := h
  rw [sampleOf_of_ne hl, tickStep_of_readingSpace cfg _ c hlt hs]
  simp [Channel.Holds, Channel.stepReadingSpace, hgap]

/-- R113. -/
theorem Channel.Holds.tick_readingSpace_space (hl : level ≠ cfg.markLevel)
    (hgap : (inc cfg el).toNat ≤ cfg.gapTicks) :
    (tickStep cfg (sampleOf cfg level) c).Holds .readingSpace len (inc cfg el) raw := by
  obtain ⟨hs, rfl, rfl, rfl⟩ := h
  rw [sampleOf_of_ne hl, tickStep_of_readingSpace cfg _ c hlt hs]
  simp [Channel.Holds, Channel.stepReadingSpace, hs, Nat.not_lt.mpr hgap]

end

end

/-- Settles O47: the rows, one after the other, in the order in which the table gives them precedence. -/
theorem tickFollowsTheTransitionTable : Obligations.TickFollowsTheTransitionTable := by
  unfold Obligations.TickFollowsTheTransitionTable
  intro s irIn
  refine ⟨s.ticked irIn, exec_tick s irIn, s.ticked_nch irIn, fun k c hc => ⟨_, s.ticked_of_chan irIn hc, ?_⟩⟩
  have holds {st : ChState} (hs : c.state = st) : c.Holds st c.length c.elapsedTicks c.rawBuffer :=
    ⟨hs, rfl, rfl, rfl⟩
  intro e' isMark after
  by_cases hstop : s.cfg.capacity ≤ c.length.toNat ∨ c.state = .stopped
  · rw [if_pos hstop]
    exact ⟨(holds rfl).tick_stopped_mark hstop, (holds rfl).tick_stopped_space hstop⟩
  rw [if_neg hstop]
  obtain ⟨hfull, hrunning⟩ := not_or.mp hstop
  have hlt : c.length.toNat < s.cfg.capacity := Nat.not_le.mp hfull
  cases hs : c.state with
  | idle => exact ⟨(holds hs).tick_idle_space hlt, (holds hs).tick_idle_noise hlt, (holds hs).tick_idle_start hlt⟩
  | readingMark => exact ⟨(holds hs).tick_readingMark_mark hlt, (holds hs).tick_readingMark_space hlt⟩
  | readingSpace =>
    exact ⟨(holds hs).tick_readingSpace_mark hlt, (holds hs).tick_readingSpace_end hlt,
      (holds hs).tick_readingSpace_space hlt⟩
  | stopped => exact absurd hs hrunning

/-- Settles O50: the guard comes first, so the STOPPED row runs in every state of a full channel. -/
theorem fullBufferIsStoppedByTheNextTick : Obligations.FullBufferIsStoppedByTheNextTick := by
  unfold Obligations.FullBufferIsStoppedByTheNextTick
  intro s irIn k c hc hfull
  refine ⟨s.ticked irIn, _, exec_tick s irIn, s.ticked_of_chan irIn hc, ?_⟩
  have holds : c.Holds c.state c.length c.elapsedTicks c.rawBuffer := ⟨rfl, rfl, rfl, rfl⟩
  by_cases hl : levelOf irIn k = s.cfg.markLevel
  · obtain ⟨hs, hlen, hel, hraw⟩ := holds.tick_stopped_mark (.inl hfull) hl
    exact ⟨hs, hlen, hraw, by rw [hel, if_pos hl]⟩
  · obtain ⟨hs, hlen, hel, hraw⟩ := holds.tick_stopped_space (.inl hfull) hl
    exact ⟨hs, hlen, hraw, by rw [hel, if_neg hl]⟩

/-! ## TICKs one after the other -/

/-- Channel `k` after a list of TICKs, given what it was before them. -/
def Channel.ticks (cfg : Config) (k : Nat) (ls : List Levels) (c : Channel) : Channel :=
  ls.foldl (fun d l => tickStep cfg (sampleOf cfg (levelOf l k)) d) c

/-- A list of TICKs goes through, and each channel takes them on its own (40_tick_sampler.md R102). -/
theorem execTicks_chan (ls : List Levels) : ∀ {s : State} {k : Nat} {c : Channel}, s.chans[k]? = some c →
    ∃ t, execTicks ls s = .next t ∧ t.chans[k]? = some (c.ticks s.cfg k ls) := by
  induction ls with
  | nil => exact fun hc => ⟨_, rfl, hc⟩
  | cons l ls ih =>
    intro s k c hc
    obtain ⟨t, ht, hd⟩ := ih (s.ticked_of_chan l hc)
    exact ⟨t, by rw [execTicks, exec_tick, andThen_next, ht], hd⟩

theorem Channel.ticks_concat (cfg : Config) (k : Nat) (run : List Levels) (last : Levels) (c : Channel) :
    c.ticks cfg k (run ++ [last]) = tickStep cfg (sampleOf cfg (levelOf last k)) (c.ticks cfg k run) := by
  simp [Channel.ticks]

/-! ## Runs -/

/-- While every TICK of a run only counts, the counter has gone on by the number of TICKs at its end. -/
theorem Channel.Holds.ticks_counting {cfg : Config} (hw : cfg.tickW ≤ 32) {k : Nat} {st : ChState} {len : BitVec 9}
    {raw : List Ticks} (run : List Levels) : ∀ {c : Channel} {n : Nat}, n + run.length < 2 ^ cfg.tickW →
    (∀ l ∈ run, ∀ (d : Channel) (m : Nat), m < n + run.length → d.Holds st len (BitVec.ofNat 32 m) raw →
      (tickStep cfg (sampleOf cfg (levelOf l k)) d).Holds st len (inc cfg (BitVec.ofNat 32 m)) raw) →
    c.Holds st len (BitVec.ofNat 32 n) raw →
    (c.ticks cfg k run).Holds st len (BitVec.ofNat 32 (n + run.length)) raw := by
  induction run with
  | nil => exact fun _ _ hc => hc
  | cons l run ih =>
    intro c n hlt hcount hc
    rw [List.length_cons] at hlt hcount
    have hlen : n + (run.length + 1) = n + 1 + run.length := by omega
    have hnext := hcount l List.mem_cons_self c n (by omega) hc
    rw [inc_ofNat hw (by omega)] at hnext
    rw [List.length_cons, hlen]
    rw [hlen] at hlt hcount
    exact ih hlt (fun l' hl' => hcount l' (List.mem_cons_of_mem l hl')) hnext

section
variable {cfg : Config} (hw : cfg.tickW ≤ 32) {k n : Nat} {c : Channel} {len : BitVec 9} {raw : List Ticks}
  (hcap : len.toNat < cfg.capacity) {run : List Levels} (hlt : n + run.length < 2 ^ cfg.tickW)
include hw hcap hlt

theorem Channel.Holds.ticks_readingMark (h : c.Holds .readingMark len (BitVec.ofNat 32 n) raw)
    (hrun : ∀ l ∈ run, levelOf l k = cfg.markLevel) :
    (c.ticks cfg k run).Holds .readingMark len (BitVec.ofNat 32 (n + run.length)) raw :=
  h.ticks_counting hw run hlt fun l hl _ _ _ hd => hd.tick_readingMark_mark hcap (hrun l hl)

theorem Channel.Holds.ticks_idle (h : c.Holds .idle len (BitVec.ofNat 32 n) raw)
    (hrun : ∀ l ∈ run, levelOf l k ≠ cfg.markLevel) :
    (c.ticks cfg k run).Holds .idle len (BitVec.ofNat 32 (n + run.length)) raw :=
  h.ticks_counting hw run hlt fun l hl _ _ _ hd => hd.tick_idle_space hcap (hrun l hl)

/-- A SPACE run goes on as long as the counter stays within the gap threshold (R112, R113). -/
theorem Channel.Holds.ticks_readingSpace (h : c.Holds .readingSpace len (BitVec.ofNat 32 n) raw)
    (hrun : ∀ l ∈ run, levelOf l k ≠ cfg.markLevel) (hgap : n + run.length ≤ cfg.gapTicks) :
    (c.ticks cfg k run).Holds .readingSpace len (BitVec.ofNat 32 (n + run.length)) raw := by
  refine h.ticks_counting hw run hlt fun l hl d m hm hd => hd.tick_readingSpace_space hcap (hrun l hl) ?_
  rw [inc_ofNat hw (by omega), toNat_ofNat_of_lt_two_pow hw (by omega)]
  omega

end

/-- Settles O51: the run's samples only count, and the sample that ends it records the counter, incremented once
more. -/
theorem recordedEntryIsTheLengthOfItsRun : Obligations.RecordedEntryIsTheLengthOfItsRun := by
  unfold Obligations.RecordedEntryIsTheLengthOfItsRun
  intro s k c run last hinv hc hel hcap hlt
  obtain ⟨-, -, -, hw, -⟩ := configLegal_bounds hinv.legal
  obtain ⟨t, ht, hd⟩ := execTicks_chan (run ++ [last]) hc
  rw [Channel.ticks_concat] at hd
  have hstart {st : ChState} (hs : c.state = st) : c.Holds st c.length (BitVec.ofNat 32 0) c.rawBuffer :=
    ⟨hs, rfl, hel, rfl⟩
  have hlast : inc s.cfg (BitVec.ofNat 32 (0 + run.length)) = BitVec.ofNat 32 (run.length + 1) := by
    rw [Nat.zero_add, inc_ofNat hw hlt]
  have hsucc := Channel.toNat_length_succ hinv.legal hcap
  constructor
  · intro hs hrun hl
    obtain ⟨hs', hlen, hel', hraw⟩ :=
      ((hstart hs).ticks_readingMark hw hcap (by omega) hrun).tick_readingMark_space hcap hl
    exact ⟨t, _, ht, hd, hs', by rw [hlen, hsucc], hel', by rw [hraw, hlast]⟩
  · intro hs hrun hl hgap
    obtain ⟨hs', hlen, hel', hraw⟩ :=
      ((hstart hs).ticks_readingSpace hw hcap (by omega) hrun (by omega)).tick_readingSpace_mark hcap hl
    exact ⟨t, _, ht, hd, hs', by rw [hlen, hsucc], hel', by rw [hraw, hlast]⟩

/-- R34 and CAPACITY ≥ 2: an IDLE channel has room. -/
theorem State.Inv.length_lt_of_idle {s : State} (hinv : s.Inv) {c : Channel} (hc : c ∈ s.chans)
    (hs : c.state = .idle) : c.length.toNat < s.cfg.capacity := by
  obtain ⟨-, -, -, -, hcap, -⟩ := configLegal_bounds hinv.legal
  have hlen := (hinv.chans c hc).stateLength
  simp only [Channel.stateLengthInv, hs] at hlen
  omega

/-- Settles O52: the SPACE samples only count, and the MARK finds the counter at or past the gap threshold. -/
theorem leadingGapIsTheCounterAtTheMarkThatEndsIt : Obligations.LeadingGapIsTheCounterAtTheMarkThatEndsIt := by
  unfold Obligations.LeadingGapIsTheCounterAtTheMarkThatEndsIt
  intro s k c run last hinv hc hs hlt hgap hrun hl
  obtain ⟨-, -, -, hw, -⟩ := configLegal_bounds hinv.legal
  have hcap := hinv.length_lt_of_idle (List.mem_of_getElem? hc) hs
  obtain ⟨t, ht, hd⟩ := execTicks_chan (run ++ [last]) hc
  rw [Channel.ticks_concat] at hd
  have hstart : c.Holds .idle c.length (BitVec.ofNat 32 c.elapsedTicks.toNat) c.rawBuffer :=
    ⟨hs, rfl, by simp, rfl⟩
  have hlast := inc_ofNat hw hlt
  have hgap' : s.cfg.gapTicks ≤ (inc s.cfg (BitVec.ofNat 32 (c.elapsedTicks.toNat + run.length))).toNat := by
    rw [hlast, toNat_ofNat_of_lt_two_pow hw hlt]
    exact hgap
  obtain ⟨hs', hlen, hel, hraw⟩ := (hstart.ticks_idle hw hcap (by omega) hrun).tick_idle_start hcap hl hgap'
  exact ⟨t, _, ht, hd, hs', hlen, hel, by rw [hraw, hlast]⟩

end Sys2Proof.Machine
end

section
/-! Proofs of the statements on the host commands (41_host_commands.md): the response and the frame of each command
(R131 to R138), that a command acts on its own channel alone (R130), and a RESUME with a MARK in one cycle (R132). -/

namespace Sys2Proof.Machine

/-! ## The writing commands -/

/-- The channel a RESUME leaves (41_host_commands.md R132). -/
def Channel.resumed (c : Channel) : Channel := { c with state := .idle, length := 0 }

section
variable {s : State} {ch : ChanIdx} {c : Channel} (hc : s.chans[ch.toNat]? = some c)
include hc

/-- RESUME answers OK and writes its channel alone (41_host_commands.md R132). -/
theorem exec_resume_answeredWriting : ∃ t, exec (.resume ch) s = .next t ∧
    s.AnsweredWriting t ch.toNat c.resumed (.bare .ok) :=
  ⟨_, exec_resume hc, State.answeredWriting_setChan hc _ _⟩

/-- SETBLINK answers OK and writes its channel alone (41_host_commands.md R134). -/
theorem exec_setblink_answeredWriting (en : Bool) : ∃ t, exec (.setblink ch en) s = .next t ∧
    s.AnsweredWriting t ch.toNat { c with blinkEn := en } (.bare .ok) :=
  ⟨_, exec_setblink hc en, State.answeredWriting_setChan hc _ _⟩

end

/-- Writing the channel that is there already leaves the channels as they were. -/
theorem State.AnsweredWriting.chans_eq {s t : State} {k : Nat} {c : Channel} {r : Response}
    (h : s.AnsweredWriting t k c r) (hc : s.chans[k]? = some c) : t.chans = s.chans := by
  refine List.ext_getElem? fun j => ?_
  by_cases hj : j = k
  · rw [hj, h.written, hc]
  · exact h.others j hj

/-- 42_frame_decode.md R151. -/
theorem decodeResponse_of_not_stopped {c : Channel} (h : c.state ≠ .stopped) (cfg : Config) :
    decodeResponse cfg c = .bare .notReady := if_neg h

/-- A SETBLINK word with a bit of `imm8[7:1]` set (30_encoding.md R77, R78). -/
theorem decodeCmd_setblink_reserved {w : CmdWord} (hop : w.toNat / 2 ^ 12 = 3) (himm : 2 ≤ w.toNat % 2 ^ 8) :
    decodeCmd w = .error .reservedOperandBits := by
  rw [← opOf_toNat] at hop
  rcases decodeCmd_cases w with ⟨hop8, -⟩ | ⟨-, hd⟩ | ⟨hop7, -⟩ | ⟨-, hne3, -⟩
  · omega
  · exact hd.trans (enableOperand_of_two_le himm _)
  · omega
  · exact absurd hop hne3

/-- Settles O21: NOP on a channel that exists answers and does nothing else. -/
theorem nopAnswersOk : Obligations.NopAnswersOk := by
  unfold Obligations.NopAnswersOk
  intro s ch hch
  obtain ⟨c, hc⟩ := State.exists_chan hch
  exact ⟨_, exec_nop hc, s.answered_withResponse _⟩

/-- Settles O22: RESUME reads no field of the channel it writes. -/
theorem resumeSetsIdleAndLengthZero : Obligations.ResumeSetsIdleAndLengthZero := by
  unfold Obligations.ResumeSetsIdleAndLengthZero
  exact fun _ _ _ hc => exec_resume_answeredWriting hc

/-- Settles O23: the second RESUME writes the channel that the first one left, and DECODE finds it IDLE. -/
theorem resumeIsIdempotentAndMakesDecodeNotReady : Obligations.ResumeIsIdempotentAndMakesDecodeNotReady := by
  unfold Obligations.ResumeIsIdempotentAndMakesDecodeNotReady
  intro s ch hch
  obtain ⟨c, hc⟩ := State.exists_chan hch
  obtain ⟨t, ht, hst⟩ := exec_resume_answeredWriting hc
  obtain ⟨u, hu, htu⟩ := exec_resume_answeredWriting hst.written
  have hidle : c.resumed.state ≠ .stopped := nofun
  have hdecode : exec (.decode ch) t = .next (t.withResponse (.bare .notReady)) := by
    rw [exec_decode hst.written, decodeResponse_of_not_stopped hidle]
  exact ⟨t, u, _, c.resumed, ht, hu, htu.chans_eq hst.written, hst.written, rfl, rfl, hdecode,
    t.answered_withResponse _⟩

/-- Settles O24: the write of one field, and the check of the operand's reserved bits. -/
theorem setblinkWritesBlinkEnable : Obligations.SetblinkWritesBlinkEnable := by
  unfold Obligations.SetblinkWritesBlinkEnable
  exact ⟨fun _ _ en _ hc => exec_setblink_answeredWriting hc en, fun _ => decodeCmd_setblink_reserved⟩

/-! ## The reading commands -/

/-- The value of a concatenation: the upper part stands above the `m` bits of the lower one. -/
theorem toNat_append_eq {n m : Nat} (x : BitVec n) (y : BitVec m) : (x ++ y).toNat = 2 ^ m * x.toNat + y.toNat := by
  rw [BitVec.toNat_append, ← Nat.shiftLeft_add_eq_or_of_lt y.isLt, Nat.shiftLeft_eq, Nat.mul_comm]

section
variable (cfg : Config) (c : Channel)

/-- The layout of STATUS (10_state.md R29), each field at its place value; the 26 reserved bits above them are 0. -/
theorem Channel.statusWord_toNat : (c.statusWord cfg).toNat =
    32 * c.ready.toNat + 16 * c.ledQ.toNat + 8 * c.blinkEn.toNat + 4 * (c.full cfg).toNat + c.state.code.toNat := by
  simp only [Channel.statusWord, toNat_append_eq, BitVec.toNat_ofBool, BitVec.toNat_ofNat]
  omega

theorem Channel.statusWord_toNat_lt : (c.statusWord cfg).toNat < 2 ^ 6 := by
  have hready := c.ready.toNat_le
  have hled := c.ledQ.toNat_le
  have hblink := c.blinkEn.toNat_le
  have hfull := (c.full cfg).toNat_le
  have hcode := c.state.code.isLt
  rw [c.statusWord_toNat cfg]
  omega

/-- STATE, in the two lowest bits. -/
theorem Channel.statusWord_mod_four : (c.statusWord cfg).toNat % 4 = c.state.code.toNat := by
  have hcode := c.state.code.isLt
  rw [c.statusWord_toNat cfg]
  omega

/-- FULL, BLINK, LED and READY, one bit each. -/
theorem Channel.statusWord_flags :
    (c.statusWord cfg).getLsbD 2 = c.full cfg ∧ (c.statusWord cfg).getLsbD 3 = c.blinkEn ∧
      (c.statusWord cfg).getLsbD 4 = c.ledQ ∧ (c.statusWord cfg).getLsbD 5 = c.ready := by
  simp only [Channel.statusWord, BitVec.getLsbD_append, BitVec.getLsbD_ofBool]
  simp

end

/-- Settles O25: the layout of the STATUS word, field by field. -/
theorem rdstatusReturnsTheStatusWord : Obligations.RdstatusReturnsTheStatusWord := by
  unfold Obligations.RdstatusReturnsTheStatusWord
  intro s ch c hc
  obtain ⟨hfull, hblink, hled, hready⟩ := c.statusWord_flags s.cfg
  refine ⟨_, c.statusWord s.cfg, exec_rdstatus hc, s.answered_withResponse _, ?_, hfull, hblink, hled, hready,
    c.statusWord_toNat_lt s.cfg⟩
  rw [c.statusWord_mod_four s.cfg]
  cases c.state <;> rfl

/-- Settles O26: the 9 bits of `length` fit the data word. -/
theorem rdlenReturnsLength : Obligations.RdlenReturnsLength := by
  unfold Obligations.RdlenReturnsLength
  intro s ch c hc
  exact ⟨_, _, exec_rdlen hc, s.answered_withResponse _, BitVec.toNat_setWidth_of_le (by decide)⟩

/-- Settles O27: the counter's word is the data word. -/
theorem rdelapsedReturnsElapsedTicks : Obligations.RdelapsedReturnsElapsedTicks := by
  unfold Obligations.RdelapsedReturnsElapsedTicks
  intro s ch c hc
  exact ⟨_, _, exec_rdelapsed hc, s.answered_withResponse _, rfl⟩

/-- Below `length` the buffer of a channel that meets the invariant has an entry (10_state.md R33). -/
theorem Channel.Inv.getElem?_of_lt_length {cfg : Config} {c : Channel} (h : c.Inv cfg) {i : Nat}
    (hi : i < c.length.toNat) : c.rawBuffer[i]? = some (c.raw i) := by
  have hraw := h.raw_wf.1
  have hlen := h.length_le
  exact Channel.getElem?_raw (by omega)

/-- Settles O28: the index below `length`, where the invariant gives the entry, and the index from `length` on. -/
theorem rdrawReturnsTheEntryOrBadIndex : Obligations.RdrawReturnsTheEntryOrBadIndex := by
  unfold Obligations.RdrawReturnsTheEntryOrBadIndex
  intro s ch idx c hinv hc
  constructor
  · intro hlt
    have hentry := (hinv.chans c (List.mem_of_getElem? hc)).getElem?_of_lt_length hlt
    exact ⟨_, _, exec_rdraw_of_lt hc hlt, hentry, s.answered_withResponse _⟩
  · intro hge
    exact ⟨_, exec_rdraw_of_ge hc hge, s.answered_withResponse _⟩

/-! ## A command and the other channels -/

/-- Settles O31: both states miss the channel and answer BAD_CHANNEL, or the channel, the parameters and the free index
that they share fix the answer and what is written. -/
theorem commandActsOnItsChannelAlone : Obligations.CommandActsOnItsChannelAlone := by
  unfold Obligations.CommandActsOnItsChannelAlone
  intro s s' i ch hi hcfg hfree hchan
  cases hc : s.chans[ch.toNat]? with
  | none =>
    have hc' := hchan.symm.trans hc
    exact ⟨_, _, exec_command_missing hi hc, exec_command_missing hi hc', by simp [hfree], hchan, rfl,
      fun _ _ => rfl⟩
  | some c =>
    have hc' := hchan.symm.trans hc
    have hs := State.answeredWriting_setChan hc (writtenOn c i) (replyOn s.cfg c i)
    have hs' := State.answeredWriting_setChan hc' (writtenOn c i) (replyOn s'.cfg c i)
    exact ⟨_, _, exec_command_on hi hc, exec_command_on hi hc', by simp [hcfg, hfree],
      hs.written.trans hs'.written.symm, hs.nch, hs.others⟩

/-! ## A command and a TICK in one cycle -/

/-- A cycle that accepts a command runs it on the state at the cycle's start, and the TICK on what it leaves
(70_reset_and_hazards.md R240). -/
theorem step_of_accepted_command {s u : State} {i : Instr} (hlegal : s.legal = true) (hrst : s.pins.rst = false)
    (hvalid : s.pins.cmdValid = true) (hready : s.cmdReady = true) (hdecode : decodeCmd s.pins.cmd = .ok i)
    (hexec : exec i s.beginCycle = .next u) : step s = .next (u.afterTick s.pins) := by
  rw [step_of_run hlegal hrst, hready, commandPhase_of_accepted hvalid, acceptWord_of_ok hdecode, hexec, andThen_next,
    tickPhase_eq]

theorem State.afterTick_of_tick {p : Pins} (h : p.tick = true) (s : State) : s.afterTick p = s.ticked p.irIn :=
  if_pos h

/-- Settles O15: the MARK finds the channel as the RESUME left it, IDLE and with its counter kept. -/
theorem resumeWithMarkInOneCycleStartsAFrame : Obligations.ResumeWithMarkInOneCycleStartsAFrame := by
  unfold Obligations.ResumeWithMarkInOneCycleStartsAFrame
  intro s ch c hinv hrst htick hvalid hready hdecode hc hmark hgap
  obtain ⟨u, hu, hresumed⟩ := exec_resume_answeredWriting (s := s.beginCycle) hc
  have hcfg : u.cfg = s.cfg := hresumed.cfg
  have hstep := step_of_accepted_command hinv.legal hrst hvalid hready hdecode hu
  rw [State.afterTick_of_tick htick] at hstep
  have hd := u.ticked_of_chan s.pins.irIn hresumed.written
  rw [hcfg] at hd
  have hroom : (0 : BitVec 9).toNat < s.cfg.capacity := by
    obtain ⟨-, -, -, -, hcap, -⟩ := configLegal_bounds hinv.legal
    exact Nat.lt_of_lt_of_le Nat.two_pos hcap
  have hidle : c.resumed.Holds .idle 0 c.elapsedTicks c.rawBuffer := ⟨rfl, rfl, rfl, rfl⟩
  obtain ⟨hstate, hlength, helapsed, hraw⟩ := hidle.tick_idle_start hroom hmark hgap
  have hentries : 0 < c.rawBuffer.length := by
    rw [(hinv.chans c (List.mem_of_getElem? hc)).raw_wf.1]
    exact hroom
  exact ⟨_, _, hstep, hd, hstate, hlength, helapsed, by rw [hraw, List.getElem?_set_self hentries]⟩

end Sys2Proof.Machine
end

section
/-! Proofs of the statements on frame decoding (42_frame_decode.md): the orchestrator's three answers (R150 to R153), the
tolerance match (R155), the grammar (R157 to R166) and the fallback hash (R170 to R176). -/

namespace Sys2Proof.Machine

/-! ## What the grammar needs, and how it fails -/

theorem GrammarResult.eq_failed_of_not_matched {g : GrammarResult} (h : ∀ v b, g ≠ .matched v b) : g = .failed := by
  cases g with
  | matched v b => exact absurd rfl (h v b)
  | failed => rfl

section
variable {cfg : Config} {c : Channel}

/-- A match has at least MIN_BITS bits (42_frame_decode.md R163), and the header and the bits lie below `length`. -/
theorem grammar_matched_count {v : DataWord} {b : Nat} (h : grammar cfg c = .matched v b) :
    12 ≤ b ∧ 2 * b + 2 ≤ c.length.toNat := by
  obtain ⟨-, -, hloop⟩ := grammar_matched cfg c h
  obtain ⟨hmin, -, hentries⟩ := grammarLoop_matched cfg c hloop
  have hmin : 12 ≤ b := hmin
  have hentries := hentries (by omega)
  omega

/-- The least length a match can have (42_frame_decode.md R158, R163, R166). -/
theorem grammar_matched_length {v : DataWord} {b : Nat} (h : grammar cfg c = .matched v b) :
    max (2 * cfg.nBits + 2) 26 ≤ c.length.toNat := by
  obtain ⟨hguard, -, -⟩ := grammar_matched cfg c h
  obtain ⟨hmin, hentries⟩ := grammar_matched_count h
  omega

theorem grammar_failed_of_short (h : c.length.toNat < max (2 * cfg.nBits + 2) 26) : grammar cfg c = .failed :=
  GrammarResult.eq_failed_of_not_matched fun _ _ hm => absurd (grammar_matched_length hm) (Nat.not_le.mpr h)

/-- The header is checked before any bit is read (42_frame_decode.md R159). -/
theorem grammar_failed_of_header (h : durationMatches cfg (c.raw 1) cfg.hdrMark = false) : grammar cfg c = .failed :=
  GrammarResult.eq_failed_of_not_matched fun _ _ hm => by
    obtain ⟨-, hheader, -⟩ := grammar_matched cfg c hm
    exact absurd hheader (Bool.eq_false_iff.mp h)

theorem grammar_failed_of_loop (h : grammarLoop cfg c c.length.toNat 2 0 0 = .failed) : grammar cfg c = .failed :=
  GrammarResult.eq_failed_of_not_matched fun _ _ hm => by
    obtain ⟨-, -, hloop⟩ := grammar_matched cfg c hm
    cases h.symm.trans hloop

/-! ## What DECODE answers -/

theorem decodeResponse_of_matched (hs : c.state = .stopped) {v : DataWord} {b : Nat}
    (hg : grammar cfg c = .matched v b) :
    decodeResponse cfg c = { status := .ok, tag := .framed, bits := BitVec.ofNat 16 b, data := v } := by
  rw [decodeResponse, if_pos hs, hg]

theorem decodeResponse_of_failed (hs : c.state = .stopped) (hg : grammar cfg c = .failed) :
    decodeResponse cfg c =
      if c.length.toNat ≥ hashMinLen then { status := .ok, tag := .hash, bits := 32, data := hash cfg c }
      else .bare .noMatch := by
  rw [decodeResponse, if_pos hs, hg]

end

/-- DECODE on a channel that exists answers and writes nothing (42_frame_decode.md R154). -/
theorem exec_decode_answered {s : State} {ch : ChanIdx} {c : Channel} (hc : s.chans[ch.toNat]? = some c) {r : Response}
    (hr : decodeResponse s.cfg c = r) : ∃ t, exec (.decode ch) s = .next t ∧ s.Answered t r :=
  ⟨_, exec_decode hc, hr ▸ s.answered_withResponse _⟩

/-- The fallback of the orchestrator (42_frame_decode.md R152, R175). -/
theorem exec_decode_hash {s : State} {ch : ChanIdx} {c : Channel} (hc : s.chans[ch.toNat]? = some c)
    (hs : c.state = .stopped) (hlen : 6 ≤ c.length.toNat) (hg : grammar s.cfg c = .failed) :
    ∃ t, exec (.decode ch) s = .next t ∧
      s.Answered t { status := .ok, tag := .hash, bits := 32, data := hash s.cfg c } :=
  exec_decode_answered hc ((decodeResponse_of_failed hs hg).trans (if_pos hlen))

/-- Settles O32: the state is checked before anything is read. -/
theorem decodeBeforeStoppedIsNotReady : Obligations.DecodeBeforeStoppedIsNotReady := by
  unfold Obligations.DecodeBeforeStoppedIsNotReady
  intro s ch c hc hs
  exact exec_decode_answered hc (decodeResponse_of_not_stopped hs s.cfg)

/-- Settles O33: below 6 entries the grammar fails too, being too short; from 6 on its result selects the tag. -/
theorem decodeOfStoppedChannelIsOkFromLengthSix : Obligations.DecodeOfStoppedChannelIsOkFromLengthSix := by
  unfold Obligations.DecodeOfStoppedChannelIsOkFromLengthSix
  intro s ch c hc hs
  constructor
  · intro hlt
    have hg : grammar s.cfg c = .failed := grammar_failed_of_short (by omega)
    exact exec_decode_answered hc ((decodeResponse_of_failed hs hg).trans (if_neg (Nat.not_le.mpr hlt)))
  · intro hlen
    cases hg : grammar s.cfg c with
    | matched v b =>
      obtain ⟨t, ht, ha⟩ := exec_decode_answered hc (decodeResponse_of_matched hs hg)
      exact ⟨t, ht, .inl ⟨v, b, rfl, ha⟩⟩
    | failed =>
      obtain ⟨t, ht, ha⟩ := exec_decode_hash hc hs hlen hg
      exact ⟨t, ht, .inr ⟨rfl, ha⟩⟩

/-- Settles O35: the guard gives one bound of a match's length, its 12 bits the other. -/
theorem grammarNeedsItsMinimumLength : Obligations.GrammarNeedsItsMinimumLength := by
  unfold Obligations.GrammarNeedsItsMinimumLength
  constructor
  · intro cfg c v b hm
    exact grammar_matched_length hm
  · intro s ch c hinv hc hs hcap hlen
    have hle := (hinv.chans c (List.mem_of_getElem? hc)).length_le
    exact exec_decode_hash hc hs hlen (grammar_failed_of_short (by omega))

/-- Settles O36: a match's bits lie below `length`, `length` is at most CAPACITY, and CAPACITY at most 256. -/
theorem matchedBitCountIsBounded : Obligations.MatchedBitCountIsBounded := by
  unfold Obligations.MatchedBitCountIsBounded
  intro s c v b hinv hc hm
  obtain ⟨hmin, hentries⟩ := grammar_matched_count hm
  have hle := (hinv.chans c hc).length_le
  obtain ⟨-, -, -, -, -, hcap, -⟩ := configLegal_bounds hinv.legal
  omega

/-- Settles O58: the header is checked first, and no read of the grammar is at entry 0. -/
theorem headerOutsideItsWindowFallsBackToTheHash : Obligations.HeaderOutsideItsWindowFallsBackToTheHash := by
  unfold Obligations.HeaderOutsideItsWindowFallsBackToTheHash
  constructor
  · intro s ch c hheader
    have hg := grammar_failed_of_header hheader
    exact ⟨hg, fun hc hs hlen => exec_decode_hash hc hs hlen hg⟩
  · intro cfg c v
    exact grammar_congr cfg rfl fun i hi _ => Channel.setRaw_raw_other (by omega)

/-! ## Where the frame ends -/

/-- The loop ends after `n` bits at the latest: no whole pair is left, or the next separator fails
(42_frame_decode.md R160, R162). -/
def Channel.FrameEndsAt (cfg : Config) (c : Channel) (n : Nat) : Prop :=
  c.length.toNat ≤ 2 * n + 3 ∨ durationMatches cfg (c.raw (2 * n + 2)) cfg.hdrSpace = false

section
variable {cfg : Config} {c d : Channel} {n : Nat}

/-- The loop at the end of the frame checks the count (42_frame_decode.md R163). -/
theorem Channel.FrameEndsAt.grammarLoop_eq (h : c.FrameEndsAt cfg n) (fuel : Nat) (acc : DataWord) (b : Nat) :
    grammarLoop cfg c (fuel + 1) (2 * n + 2) acc b = if b < minBits then .failed else .matched acc b :=
  grammarLoop_of_end cfg c h

/-- Two buffers that both end after `n` bits and hold the same pairs up to there are read alike, from each pair on. -/
theorem grammarLoop_congr_of_frameEndsAt (hc : c.FrameEndsAt cfg n) (hd : d.FrameEndsAt cfg n)
    (hlen : ∀ k, k < n → (2 * k + 3 < d.length.toNat ↔ 2 * k + 3 < c.length.toNat))
    (hraw : ∀ i, i < 2 * n + 2 → d.raw i = c.raw i) (fuel : Nat) : ∀ {k : Nat} (acc : DataWord) (b : Nat), k ≤ n →
      grammarLoop cfg d fuel (2 * k + 2) acc b = grammarLoop cfg c fuel (2 * k + 2) acc b := by
  induction fuel with
  | zero => exact fun _ _ _ => rfl
  | succ fuel ih =>
    intro k acc b hk
    rcases Nat.eq_or_lt_of_le hk with rfl | hk
    · rw [hc.grammarLoop_eq, hd.grammarLoop_eq]
    · have hnext := fun acc b => ih (k := k + 1) acc b hk
      rw [grammarLoop_succ, grammarLoop_succ, hraw (2 * k + 2) (by omega), hraw (2 * k + 2 + 1) (by omega)]
      simp only [hlen k hk, show 2 * k + 2 + 2 = 2 * (k + 1) + 2 from rfl, hnext]

end

/-- The channel with the last entry of its frame left out. -/
def Channel.withoutLast (c : Channel) : Channel := { c with length := c.length - 1 }

theorem Channel.withoutLast_raw (c : Channel) (i : Nat) : c.withoutLast.raw i = c.raw i := rfl

theorem Channel.withoutLast_length_toNat {c : Channel} (h : 1 ≤ c.length.toNat) :
    c.withoutLast.length.toNat = c.length.toNat - 1 := by
  have hle : 1#9 ≤ c.length := BitVec.le_def.mpr h
  exact BitVec.toNat_sub_of_le hle

/-- A separator without its MARK is not read: the last entry of an odd frame (42_frame_decode.md R162). -/
theorem grammarLoop_withoutLast (cfg : Config) {c : Channel} (hodd : c.length.toNat % 2 = 1)
    (hlen : 3 ≤ c.length.toNat) : grammarLoop cfg c.withoutLast c.withoutLast.length.toNat 2 0 0 =
      grammarLoop cfg c c.length.toNat 2 0 0 := by
  have hpred : c.withoutLast.length.toNat = c.length.toNat - 1 := Channel.withoutLast_length_toNat (by omega)
  have hends : c.FrameEndsAt cfg c.length.toNat := .inl (by omega)
  have hends' : c.withoutLast.FrameEndsAt cfg c.length.toNat := .inl (by omega)
  calc
    _ = grammarLoop cfg c c.withoutLast.length.toNat 2 0 0 :=
      grammarLoop_congr_of_frameEndsAt hends hends' (fun k _ => by omega) (fun i _ => c.withoutLast_raw i) _ (k := 0)
        0 0 (Nat.zero_le _)
    _ = _ := grammarLoop_fuel cfg c (by omega) (by omega) (by omega) (by omega)

/-- Settles O37: the length guard asks for an even length, and the loop stops before a lone last entry. -/
theorem loneTrailingEntryIsIgnored : Obligations.LoneTrailingEntryIsIgnored := by
  unfold Obligations.LoneTrailingEntryIsIgnored
  intro cfg c hodd
  change grammar cfg c = grammar cfg c.withoutLast
  have hpred : c.withoutLast.length.toNat = c.length.toNat - 1 := Channel.withoutLast_length_toNat (by omega)
  by_cases hshort : c.length.toNat < 2 * cfg.nBits + 2
  · rw [grammar_failed_of_short (by omega), grammar_failed_of_short (by omega)]
  · have hshort' : ¬ c.withoutLast.length.toNat < 2 * cfg.nBits + 2 := by omega
    rw [grammar, grammar, if_neg hshort, if_neg hshort', Channel.withoutLast_raw,
      grammarLoop_withoutLast cfg hodd (by omega)]

/-- Settles O38: both loops end at the failing separator, with the same bits before it. -/
theorem entriesAfterAFailedSeparatorAreIgnored : Obligations.EntriesAfterAFailedSeparatorAreIgnored := by
  unfold Obligations.EntriesAfterAFailedSeparatorAreIgnored
  intro cfg c d n hl hraw hsep
  have hsep' : durationMatches cfg (d.raw (2 * n + 2)) cfg.hdrSpace = false := hraw _ (le_refl _) ▸ hsep
  have hloop := grammarLoop_congr_of_frameEndsAt (cfg := cfg) (c := d) (d := c) (.inr hsep') (.inr hsep)
    (fun k _ => by rw [hl]) (fun i hi => hraw i (by omega)) d.length.toNat (k := 0) 0 0 (Nat.zero_le n)
  rw [grammar, grammar, hl, hraw 1 (by omega), hloop]

/-! ## Bits in the buffer -/

theorem bitOfMark_of_mark {cfg : Config} {m : Ticks} {b : Bool} (h1 : durationMatches cfg m cfg.oneMark = b)
    (h0 : b = false → durationMatches cfg m cfg.zeroMark = true) : bitOfMark cfg m = some b := by
  cases b with
  | true => exact bitOfMark_one cfg h1
  | false => exact bitOfMark_zero cfg h1 (h0 rfl)

/-- From offset `off` on, each bit of the list stands in the buffer as a separator and the MARK that shifts it in
(42_frame_decode.md R160, R161). -/
def Channel.HoldsBits (cfg : Config) (c : Channel) (off : Nat) (bits : List Bool) : Prop :=
  ∀ i b, bits[i]? = some b → 2 * i + off + 1 < c.length.toNat ∧
    durationMatches cfg (c.raw (2 * i + off)) cfg.hdrSpace = true ∧
    bitOfMark cfg (c.raw (2 * i + off + 1)) = some b

section
variable {cfg : Config} {c : Channel}

theorem Channel.HoldsBits.tail {off : Nat} {bit : Bool} {bits : List Bool} (h : c.HoldsBits cfg off (bit :: bits)) :
    c.HoldsBits cfg (off + 2) bits := by
  intro i b hb
  have hnext := h (i + 1) b hb
  rwa [show 2 * (i + 1) + off = 2 * i + (off + 2) by omega] at hnext

/-- The loop takes the bits in, one iteration each. -/
theorem Channel.HoldsBits.grammarLoop_eq {bits : List Bool} (fuel : Nat) : ∀ {off : Nat} (acc : DataWord) (b : Nat),
    c.HoldsBits cfg off bits → grammarLoop cfg c (fuel + bits.length) off acc b =
      grammarLoop cfg c fuel (2 * bits.length + off) (bits.foldl shiftIn acc) (b + bits.length) := by
  induction bits with
  | nil => intro off acc b _; simp
  | cons bit bits ih =>
    intro off acc b h
    obtain ⟨hin, hsep, hmark⟩ := h 0 bit rfl
    rw [Nat.mul_zero, Nat.zero_add] at hin hsep hmark
    rw [List.length_cons, ← Nat.add_assoc, grammarLoop_of_pair cfg c hin hsep hmark, ih _ _ h.tail, List.foldl_cons]
    congr 1 <;> omega

/-- The grammar's loop has fuel for all the bits, and for the iteration after them. -/
theorem Channel.HoldsBits.exists_grammarLoop_eq {bits : List Bool} (h : c.HoldsBits cfg 2 bits)
    (hlen : 2 * bits.length + 2 ≤ c.length.toNat) : ∃ fuel, grammarLoop cfg c c.length.toNat 2 0 0 =
      grammarLoop cfg c (fuel + 1) (2 * bits.length + 2) (bits.foldl shiftIn 0) bits.length := by
  obtain ⟨fuel, hfuel⟩ : ∃ fuel, c.length.toNat = fuel + 1 + bits.length := ⟨c.length.toNat - 1 - bits.length, by omega⟩
  refine ⟨fuel, ?_⟩
  rw [hfuel, h.grammarLoop_eq, Nat.zero_add]

/-- The whole loop on a frame of `bits`. -/
theorem Channel.HoldsBits.grammarLoop_of_frameEndsAt {bits : List Bool} (h : c.HoldsBits cfg 2 bits)
    (hlen : 2 * bits.length + 2 ≤ c.length.toNat) (hend : c.FrameEndsAt cfg bits.length) :
    grammarLoop cfg c c.length.toNat 2 0 0 =
      if bits.length < minBits then .failed else .matched (bits.foldl shiftIn 0) bits.length := by
  obtain ⟨fuel, hfuel⟩ := h.exists_grammarLoop_eq hlen
  rw [hfuel, hend.grammarLoop_eq]

/-- The bits of the first `n` MARKs, where each is a one or a zero. -/
def Channel.marksRead (cfg : Config) (c : Channel) (n : Nat) : List Bool :=
  (List.range n).map fun i => durationMatches cfg (c.raw (2 * i + 3)) cfg.oneMark

@[simp] theorem Channel.length_marksRead (n : Nat) : (c.marksRead cfg n).length = n := by simp [Channel.marksRead]

theorem Channel.holdsBits_marksRead {n : Nat} (hlen : 2 * n + 1 < c.length.toNat)
    (hsep : ∀ i, i < n → durationMatches cfg (c.raw (2 * i + 2)) cfg.hdrSpace = true)
    (hmark : ∀ i, i < n → durationMatches cfg (c.raw (2 * i + 3)) cfg.oneMark = true ∨
      durationMatches cfg (c.raw (2 * i + 3)) cfg.zeroMark = true) : c.HoldsBits cfg 2 (c.marksRead cfg n) := by
  intro i b hb
  have hi : i < n := by simpa using (List.getElem?_eq_some_iff.mp hb).1
  have hone : durationMatches cfg (c.raw (2 * i + 3)) cfg.oneMark = b := by
    simpa [Channel.marksRead, hi] using hb
  refine ⟨by omega, hsep i hi, bitOfMark_of_mark hone fun hb0 => ?_⟩
  rcases hmark i hi with h1 | h0
  · exact absurd (hb0.symm.trans (hone.symm.trans h1)) Bool.false_ne_true
  · exact h0

end

/-- Settles O39: the loop takes the `n` good bits in and fails at the MARK after them; the grammar may also have failed
before it. -/
theorem markOfNeitherDurationFallsBackToTheHash : Obligations.MarkOfNeitherDurationFallsBackToTheHash := by
  unfold Obligations.MarkOfNeitherDurationFallsBackToTheHash
  intro s ch c n hc hs hin hlen hsep hmark hone hzero
  have hbits := Channel.holdsBits_marksRead (by omega) (fun i hi => hsep i (by omega)) hmark
  obtain ⟨fuel, hfuel⟩ := hbits.exists_grammarLoop_eq (by rw [Channel.length_marksRead]; omega)
  rw [Channel.length_marksRead] at hfuel
  have hbad := bitOfMark_none s.cfg hone hzero
  exact exec_decode_hash hc hs hlen
    (grammar_failed_of_loop (hfuel.trans (grammarLoop_of_bad_mark s.cfg c hin (hsep n (le_refl n)) hbad)))

/-! ## The value of the bits -/

/-- The bits `bits` after the number `n`, first bit most significant. -/
def appendBits (n : Nat) (bits : List Bool) : Nat := bits.foldl (fun n b => 2 * n + b.toNat) n

theorem appendBits_cons (n : Nat) (b : Bool) (bits : List Bool) :
    appendBits n (b :: bits) = appendBits (2 * n + b.toNat) bits := rfl

/-- The accumulator holds the number modulo 2^32 (42_frame_decode.md R164). -/
theorem foldl_shiftIn_toNat (bits : List Bool) : ∀ {acc : DataWord} {n : Nat}, acc.toNat = n % 2 ^ 32 →
    (bits.foldl shiftIn acc).toNat = appendBits n bits % 2 ^ 32 := by
  induction bits with
  | nil => exact fun h => h
  | cons b bits ih =>
    intro acc n h
    rw [List.foldl_cons, appendBits_cons]
    exact ih (by rw [shiftIn_toNat, h]; omega)

theorem appendBits_lt (bits : List Bool) : ∀ n : Nat, appendBits n bits < (n + 1) * 2 ^ bits.length := by
  induction bits with
  | nil => intro n; simp [appendBits]
  | cons b bits ih =>
    intro n
    have hb : b.toNat ≤ 1 := Bool.toNat_le b
    calc appendBits n (b :: bits) < (2 * n + b.toNat + 1) * 2 ^ bits.length := ih _
      _ ≤ (2 * (n + 1)) * 2 ^ bits.length := Nat.mul_le_mul_right _ (by omega)
      _ = (n + 1) * 2 ^ (b :: bits).length := by rw [List.length_cons, Nat.pow_succ]; ring

/-- At most 32 bits fit the accumulator. -/
theorem appendBits_zero_lt {bits : List Bool} (h : bits.length ≤ 32) : appendBits 0 bits < 2 ^ 32 :=
  calc appendBits 0 bits < (0 + 1) * 2 ^ bits.length := appendBits_lt bits 0
    _ = 2 ^ bits.length := by rw [Nat.zero_add, Nat.one_mul]
    _ ≤ 2 ^ 32 := Nat.pow_le_pow_right (by omega) h

/-- Settles O34: the loop takes in exactly the frame's bits, and the accumulator is their number modulo 2^32. -/
theorem decodeRecoversTheBitsMostSignificantFirst : Obligations.DecodeRecoversTheBitsMostSignificantFirst := by
  unfold Obligations.DecodeRecoversTheBitsMostSignificantFirst
  intro s ch c bits hc hs hlen hend hheader hpairs
  have hbits : c.HoldsBits s.cfg 2 bits := fun i b hb => by
    obtain ⟨hsep, hone, hzero⟩ := hpairs i b hb
    obtain ⟨hi, -⟩ := List.getElem?_eq_some_iff.mp hb
    exact ⟨by omega, hsep, bitOfMark_of_mark hone hzero⟩
  have hloop := hbits.grammarLoop_of_frameEndsAt hlen hend
  constructor
  · intro hmin hguard
    have hg := (grammar_of_header s.cfg c hguard hheader).trans (hloop.trans (if_neg (Nat.not_lt.mpr hmin)))
    obtain ⟨t, ht, ha⟩ := exec_decode_answered hc (decodeResponse_of_matched hs hg)
    have hv : (bits.foldl shiftIn 0).toNat = appendBits 0 bits % 2 ^ 32 := foldl_shiftIn_toNat bits rfl
    exact ⟨t, _, ht, ha, hv, fun h32 => hv.trans (Nat.mod_eq_of_lt (appendBits_zero_lt h32))⟩
  · intro hfew hlen6
    exact exec_decode_hash hc hs hlen6 (grammar_failed_of_loop (hloop.trans (if_pos hfew)))

/-! ## The tolerance match -/

/-- Settles O40: the larger margin bounds the distance exactly when one of the two does. -/
theorem matchIsTheLooserOfTheTwoMargins : Obligations.MatchIsTheLooserOfTheTwoMargins := by
  unfold Obligations.MatchIsTheLooserOfTheTwoMargins
  intro cfg m e
  rw [durationMatches, decide_eq_true_eq, margin, le_max_iff]
  exact or_congr (by omega) (by omega)

/-! ## The fallback hash -/

/-- The band of R172 leaves no room for both orders, whatever its percentage. -/
theorem not_both_less (k : Nat) {a b : Nat} (h : 100 * a < (100 - k) * b) : ¬ 100 * b < (100 - k) * a := by
  have ha : (100 - k) * a ≤ 100 * a := Nat.mul_le_mul_right a (by omega)
  have hb : (100 - k) * b ≤ 100 * b := Nat.mul_le_mul_right b (by omega)
  omega

section
variable {cfg : Config} {a b : Ticks}

theorem cmpDurations_of_less (h : 100 * a.toNat < (100 - cfg.hashTolPct) * b.toNat) : cmpDurations cfg a b = -1 :=
  if_pos h

theorem cmpDurations_of_greater (h : 100 * b.toNat < (100 - cfg.hashTolPct) * a.toNat) : cmpDurations cfg a b = 1 := by
  rw [cmpDurations, if_neg (not_both_less _ h), if_pos h]

theorem cmpDurations_of_neither (hl : ¬ 100 * a.toNat < (100 - cfg.hashTolPct) * b.toNat)
    (hg : ¬ 100 * b.toNat < (100 - cfg.hashTolPct) * a.toNat) : cmpDurations cfg a b = 0 := by
  rw [cmpDurations, if_neg hl, if_neg hg]

end

/-- Settles O41: of the three cases exactly one holds, and exchanging the operands exchanges the first two. -/
theorem comparisonHasThreeExclusiveCases : Obligations.ComparisonHasThreeExclusiveCases := by
  unfold Obligations.ComparisonHasThreeExclusiveCases
  intro cfg a b _
  by_cases hl : 100 * a.toNat < (100 - cfg.hashTolPct) * b.toNat
  · have hg := not_both_less _ hl
    simp [cmpDurations_of_less hl, cmpDurations_of_greater hl, hl, hg]
  · by_cases hg : 100 * b.toNat < (100 - cfg.hashTolPct) * a.toNat
    · simp [cmpDurations_of_greater hg, cmpDurations_of_less hg, hl, hg]
    · simp [cmpDurations_of_neither hl hg, cmpDurations_of_neither hg hl, hl, hg]

/-- Settles O42: the three values, computed. -/
theorem comparisonValueIsTwosComplement : Obligations.ComparisonValueIsTwosComplement := by
  unfold Obligations.ComparisonValueIsTwosComplement
  decide

/-- The hash's update at index `i`: `raw[i]` compared with `raw[i + 2]` (42_frame_decode.md R170). -/
def hashStep (cfg : Config) (c : Channel) (h : DataWord) (i : Nat) : DataWord :=
  hashUpdate cfg h (cmpDurations cfg (c.raw i) (c.raw (i + 2)))

/-- The loop from index `i` is the fold over the indices left, given fuel for them. -/
theorem hashLoop_eq_foldl (cfg : Config) (c : Channel) (fuel : Nat) : ∀ {i : Nat} (h : DataWord),
    c.length.toNat ≤ i + 2 + fuel →
      hashLoop cfg c fuel i h = (List.range' i (c.length.toNat - 2 - i)).foldl (hashStep cfg c) h := by
  induction fuel with
  | zero => intro i h hfuel; rw [show c.length.toNat - 2 - i = 0 by omega]; rfl
  | succ fuel ih =>
    intro i h hfuel
    by_cases hin : i + 2 < c.length.toNat
    · rw [hashLoop_succ, if_pos hin, ih _ (by omega),
        show c.length.toNat - 2 - i = c.length.toNat - 2 - (i + 1) + 1 by omega, List.range'_succ, List.foldl_cons]
      rfl
    · rw [hashLoop_of_end cfg c (by omega), show c.length.toNat - 2 - i = 0 by omega]
      rfl

/-- Settles O43: the loop folds over the indices from 1 on, which are the comparisons counted from 0, shifted. -/
theorem hashFoldsTheComparisons : Obligations.HashFoldsTheComparisons := by
  unfold Obligations.HashFoldsTheComparisons
  intro cfg c
  have hrange : List.range' 1 (c.length.toNat - 2 - 1) = (List.range (c.length.toNat - 3)).map (· + 1) := by
    rw [List.range'_eq_map_range, Nat.sub_sub]
    exact List.map_congr_left fun j _ => Nat.add_comm 1 j
  rw [hash, hashLoop_eq_foldl cfg c _ _ (by omega), hrange, List.foldl_map]
  rfl

/-- Settles O44: every index the loop reads is one of a frame's entries from 1 on. -/
theorem hashReadsOnlyTheEntriesOfTheFrame : Obligations.HashReadsOnlyTheEntriesOfTheFrame := by
  unfold Obligations.HashReadsOnlyTheEntriesOfTheFrame
  intro cfg c d hl hraw
  exact (hash_congr cfg hl.symm fun i h1 hi => (hraw i h1 hi).symm).symm

end Sys2Proof.Machine
end

section
/-! Proof of the statement on exceptions (60_exceptions.md): BAD_CHANNEL (R203). -/

namespace Sys2Proof.Machine

/-- Settles O29: no channel stands at NCH or above, so no command's own rule is reached. -/
theorem everyCommandOnAMissingChannelIsBadChannel : Obligations.EveryCommandOnAMissingChannelIsBadChannel := by
  unfold Obligations.EveryCommandOnAMissingChannelIsBadChannel
  intro s i ch hi hge
  have hmissing : s.chans[ch.toNat]? = none := State.chan_none hge
  exact ⟨_, exec_command_missing hi hmissing, s.answered_withResponse _⟩

end Sys2Proof.Machine
end

section
/-! Proofs of the statements on reset and on the order within a cycle (70_reset_and_hazards.md): a reset cycle (R230),
and a command and a TICK in one cycle (R240). -/

namespace Sys2Proof.Machine

/-! ## The command before the TICK -/

section
variable {s u : State} {ch : ChanIdx} {c : Channel} (hc : s.chans[ch.toNat]? = some c)
include hc

/-- The channel that a RESUME leaves to what runs after it (41_host_commands.md R132). -/
theorem chan_of_exec_resume (hu : exec (.resume ch) s = .next u) : u.chans[ch.toNat]? = some c.resumed := by
  obtain ⟨v, hv, hwritten⟩ := exec_resume_answeredWriting hc
  obtain rfl : v = u := Host.Outcome.next.inj (hv.symm.trans hu)
  exact hwritten.written

/-- The channel that a SETBLINK leaves to what runs after it (41_host_commands.md R134). -/
theorem chan_of_exec_setblink {en : Bool} (hu : exec (.setblink ch en) s = .next u) :
    u.chans[ch.toNat]? = some { c with blinkEn := en } := by
  obtain ⟨v, hv, hwritten⟩ := exec_setblink_answeredWriting hc en
  obtain rfl : v = u := Host.Outcome.next.inj (hv.symm.trans hu)
  exact hwritten.written

end

/-- Settles O14: the TICK runs on the state `u` that the command leaves and keeps its response; RESUME and SETBLINK
write the channel that the cycle started with. -/
theorem commandRunsFirstThenTheTickOfItsCycle : Obligations.CommandRunsFirstThenTheTickOfItsCycle := by
  unfold Obligations.CommandRunsFirstThenTheTickOfItsCycle
  intro s i hlegal hrst htick hvalid hready hdecode
  obtain ⟨chs, r, hu, -⟩ := exec_command (decodeCmd_channel hdecode) s.beginCycle
  have hstep := step_of_accepted_command hlegal hrst hvalid hready hdecode hu
  rw [State.afterTick_of_tick htick] at hstep
  refine ⟨s.beginCycle_chans, _, _, hu, hstep.trans (exec_tick ..).symm, hstep, State.ticked_outstanding .., ?_, ?_⟩
  · rintro ch c rfl hc
    exact chan_of_exec_resume (s := s.beginCycle) hc hu
  · rintro ch en c rfl hc
    exact chan_of_exec_setblink (s := s.beginCycle) hc hu

/-! ## A reset cycle -/

section
variable {s : State}

/-- In a reset cycle the port takes no command (70_reset_and_hazards.md R230). -/
theorem State.ports_cmdReady_of_reset (h : s.pins.rst = true) : s.ports.cmdReady = false := by
  rw [State.ports_cmdReady, h, Bool.not_true, Bool.false_and]

/-- In a reset cycle the port drives no response (70_reset_and_hazards.md R230). -/
theorem State.ports_rspValid_of_reset (h : s.pins.rst = true) : s.ports.rspValid = false := by
  rw [State.ports_rspValid, State.driven, if_pos h, Option.isSome_none]

/-- Outside reset, a port with no command outstanding takes one (70_reset_and_hazards.md R230). -/
theorem State.ports_cmdReady_of_none (hrst : s.pins.rst = false) (h : s.outstanding = none) :
    s.ports.cmdReady = true := by
  rw [State.ports_cmdReady, hrst, State.cmdReady_of_none h, Bool.not_false, Bool.and_true]

/-- A reset cycle leaves every channel as `resetChannel` has it. -/
theorem State.mem_resetCycle {c : Channel} (h : c ∈ s.resetCycle.chans) :
    ∃ k, c = resetChannel s.cfg s.freeIdx k := by
  obtain ⟨k, -, hk⟩ := List.mem_map.mp h
  exact ⟨k, hk.symm⟩

end

/-- Settles O3: the step of a reset cycle is `resetCycle`, whatever else the pins carry, and leaves no command
outstanding. -/
theorem resetCycleResetsAndDiscards : Obligations.ResetCycleResetsAndDiscards := by
  unfold Obligations.ResetCycleResetsAndDiscards
  intro s hlegal hrst
  refine ⟨State.ports_cmdReady_of_reset hrst, State.ports_rspValid_of_reset hrst, s.resetCycle,
    step_of_reset hlegal hrst, s.resetCycle_nch, s.resetCycle_cfg, s.resetCycle_inputs, s.resetCycle_outstanding,
    fun c hc => ?_, fun hnext => State.ports_cmdReady_of_none hnext s.resetCycle_outstanding⟩
  obtain ⟨k, rfl⟩ := State.mem_resetCycle hc
  exact ⟨resetChannel_state .., resetChannel_elapsedTicks .., resetChannel_length .., resetChannel_blinkEn ..,
    resetChannel_ledQ ..⟩

end Sys2Proof.Machine
end

section
/-! Proofs of the statements on the encoder and the decoder (30_encoding.md): each undoes the other (R72, R76, R79,
R84), and the words of the table written out (R77). -/

namespace Sys2Proof

/-! ## Decoding what was encoded -/

/-- Every command decodes from its encoding: the fields of the word are the opcode, the channel and the operand. -/
theorem decodeWire_encode_command {i : Instr} {ch : ChanIdx} (hi : i.channel? = some ch) (nch : Nat) :
    decodeWire nch (encode nch i) = .ok i := by
  cases i with
  | tick irIn => cases hi
  | setblink k en => cases en <;> simp [encode, decodeWire, decodeCmd, enableOperand]
  | rdraw k idx => simp [encode, decodeWire, decodeCmd]
  | _ => simp [encode, decodeWire, decodeCmd, noOperand]

/-- The strobe stands in bit `nch`, above the levels (30_encoding.md R72). -/
theorem evtWord_toNat {nch : Nat} (hnch : nch ≤ 16) (irIn : Levels) :
    (evtWord nch irIn).toNat = 2 ^ nch + irIn.toNat := by
  have hstrobe : 2 ^ nch ≤ 2 ^ 16 := Nat.pow_le_pow_right Nat.two_pos hnch
  have hlt : 2 ^ nch + irIn.toNat < 2 ^ 17 := Nat.add_lt_add_of_le_of_lt hstrobe irIn.isLt
  rw [evtWord, BitVec.toNat_ofNat, Nat.mod_eq_of_lt hlt]

/-- An event word decodes to the TICK with its levels (30_encoding.md R72). -/
theorem decodeEvt_evtWord {nch : Nat} (hnch : nch ≤ 16) {irIn : Levels} (h : irIn.toNat < 2 ^ nch) :
    decodeEvt nch (evtWord nch irIn) = .ok (.tick irIn) := by
  have hword := evtWord_toNat hnch irIn
  have hstrobe : (evtWord nch irIn).toNat / 2 ^ nch = 1 := by
    rw [hword, Nat.add_div_left _ (Nat.two_pow_pos nch), Nat.div_eq_of_lt h]
  have hlevels : (evtWord nch irIn).toNat % 2 ^ nch = irIn.toNat := by
    rw [hword, Nat.add_mod_left, Nat.mod_eq_of_lt h]
  simp [decodeEvt, hstrobe, hlevels]

/-- Settles O6: a command by the fields of its word, a TICK by its strobe and its levels. -/
theorem decodeOfEncodeIsTheInstruction : Obligations.DecodeOfEncodeIsTheInstruction := by
  unfold Obligations.DecodeOfEncodeIsTheInstruction
  intro nch i hnch hwf
  cases hi : i.channel? with
  | some ch => exact decodeWire_encode_command hi nch
  | none =>
    cases i with
    | tick irIn => exact decodeEvt_evtWord hnch (of_decide_eq_true hwf)
    | _ => cases hi

/-! ## Encoding what was decoded -/

/-- A command word is its three fields (30_encoding.md R75). -/
theorem cmdWord_fields (w : CmdWord) : cmdWord (opOf w) (chOf w) (immOf w) = w := by
  have hch : (chOf w).toNat = w.toNat / 2 ^ 8 % 2 ^ 4 := by simp [chOf, Nat.shiftRight_eq_div_pow]
  apply BitVec.eq_of_toNat_eq
  have hw := w.isLt
  rw [cmdWord_eq_ofNat, opOf_toNat, hch, immOf_toNat, BitVec.toNat_ofNat]
  omega

/-- An accepted operand that is reserved throughout is 0. -/
theorem noOperand_eq_ok {imm : BitVec 8} {i j : Instr} (h : noOperand imm i = .ok j) : imm = 0 ∧ i = j := by
  unfold noOperand at h
  split at h
  · next himm => exact ⟨himm, Except.ok.inj h⟩
  · cases h

/-- With `imm8[7:1] = 0` the operand is its lowest bit (30_encoding.md R76). -/
theorem eq_enable_of_high_zero {imm : BitVec 8} (h : imm.extractLsb' 1 7 = 0) :
    imm = if imm.getLsbD 0 then 1 else 0 := by
  have hhigh : imm.toNat / 2 % 2 ^ 7 = 0 := by simpa [Nat.shiftRight_eq_div_pow] using congrArg BitVec.toNat h
  have himm : imm = 0 ∨ imm = 1 := by bv_omega
  rcases himm with rfl | rfl <;> rfl

/-- An accepted SETBLINK operand is its enable bit and nothing else. -/
theorem enableOperand_eq_ok {imm : BitVec 8} {f : Bool → Instr} {j : Instr} (h : enableOperand imm f = .ok j) :
    ∃ en, imm = (if en then 1 else 0) ∧ f en = j := by
  unfold enableOperand at h
  split at h
  · next hhigh => exact ⟨imm.getLsbD 0, eq_enable_of_high_zero hhigh, Except.ok.inj h⟩
  · cases h

section
variable {nch : Nat} {w : CmdWord} {i j : Instr}

/-- A word with the opcode and the operand of `i`'s encoding, on its own channel field, is that encoding. -/
theorem encode_eq_of_fields {op : BitVec 4} {imm : BitVec 8} (hop : (opOf w).toNat = op.toNat) (himm : immOf w = imm)
    (he : encode nch i = .cmd (cmdWord op (chOf w) imm)) : encode nch i = .cmd w := by
  rw [he, ← BitVec.eq_of_toNat_eq hop, ← himm, cmdWord_fields]

theorem encode_of_noOperand {op : BitVec 4} (hop : (opOf w).toNat = op.toNat)
    (he : encode nch i = .cmd (cmdWord op (chOf w) 0)) (h : noOperand (immOf w) i = .ok j) : encode nch j = .cmd w := by
  obtain ⟨himm, rfl⟩ := noOperand_eq_ok h
  exact encode_eq_of_fields hop himm he

/-- A word that decodes is the encoding of what it decodes to (30_encoding.md R79). -/
theorem encode_of_decodeCmd (h : decodeCmd w = .ok j) : encode nch j = .cmd w := by
  unfold decodeCmd at h
  split at h
  case h_1 hop => exact encode_of_noOperand (op := 0) hop rfl h
  case h_2 hop => exact encode_of_noOperand (op := 1) hop rfl h
  case h_3 hop => exact encode_of_noOperand (op := 2) hop rfl h
  case h_4 hop =>
    obtain ⟨en, himm, rfl⟩ := enableOperand_eq_ok h
    exact encode_eq_of_fields (op := 3) hop himm rfl
  case h_5 hop => exact encode_of_noOperand (op := 4) hop rfl h
  case h_6 hop => exact encode_of_noOperand (op := 5) hop rfl h
  case h_7 hop => exact encode_of_noOperand (op := 6) hop rfl h
  case h_8 hop =>
    cases h
    exact encode_eq_of_fields (op := 7) hop rfl rfl
  case h_9 => cases h

end

/-- Settles O7: a word is its fields, and an accepted one has no other bits than its instruction's encoding. -/
theorem encodeOfDecodedCommandIsTheWord : Obligations.EncodeOfDecodedCommandIsTheWord := by
  unfold Obligations.EncodeOfDecodedCommandIsTheWord
  exact fun _ _ _ h => ⟨encode_of_decodeCmd h, Machine.decodeCmd_channel h⟩

/-- Settles O9: each of the words, decoded. -/
theorem writtenOutWordsDecode : Obligations.WrittenOutWordsDecode := by
  unfold Obligations.WrittenOutWordsDecode
  decide

end Sys2Proof
end

section
/-! Proofs of the statements on the cycle: the invariant through reset and every step (10_state.md R33, R34), that no
cycle of a legal configuration stops (60_exceptions.md R200), what each kind of cycle runs (30_encoding.md R71 to R74,
60_exceptions.md R202), and the outstanding response from acceptance to delivery (30_encoding.md R74, R80). -/

namespace Sys2Proof.Machine

/-! ## The invariant -/

/-- Settles O2: every channel of a reset state meets the invariant, and REF is a legal configuration. -/
theorem resetMeetsInvariant : Obligations.ResetMeetsInvariant := by
  unfold Obligations.ResetMeetsInvariant
  have href : configLegal 1 Config.ref = true := by decide
  exact ⟨State.resetOf_inv href [], fun _ _ hlegal => State.resetOf_inv hlegal []⟩

/-- Settles O54: the one next state of a step from a state that meets the invariant meets it too. -/
theorem stepKeepsInvariant : Obligations.StepKeepsInvariant := by
  unfold Obligations.StepKeepsInvariant
  intro s t hinv hstep
  obtain ⟨u, hu, hkept, -⟩ := hinv.step
  obtain rfl : u = t := Host.Outcome.next.inj (hu.symm.trans hstep)
  exact hkept

/-- Settles O5: each kind of cycle goes on, and legality is a fact of what it keeps. -/
theorem everyCycleOfLegalConfigurationGoesOn : Obligations.EveryCycleOfLegalConfigurationGoesOn := by
  unfold Obligations.EveryCycleOfLegalConfigurationGoesOn
  intro s hlegal
  obtain ⟨t, ht, hcfg, hnch, hinputs⟩ := step_next_of_legal hlegal
  exact ⟨t, ht, State.legal_of_kept hlegal hcfg hnch, hcfg, hnch, hinputs⟩

/-! ## What each kind of cycle runs -/

section
variable {s : State} (hlegal : s.legal = true) (hrst : s.pins.rst = false)
include hlegal hrst

/-- A cycle that accepts no command takes its pins, and its TICK if it has one. -/
theorem step_of_not_accepted (hnot : s.pins.cmdValid = false ∨ s.cmdReady = false) :
    step s = .next (s.beginCycle.afterTick s.pins) := by
  rw [step_of_run hlegal hrst, commandPhase_of_not_accepted hnot, andThen_next, tickPhase_eq]

/-- A cycle that accepts an ILLEGAL word answers it, and runs its TICK on what that leaves (60_exceptions.md R202). -/
theorem step_of_accepted_illegal {e : DecodeError} (hvalid : s.pins.cmdValid = true) (hready : s.cmdReady = true)
    (hdecode : decodeCmd s.pins.cmd = .error e) :
    step s = .next ((s.beginCycle.withResponse (.bare .illegal)).afterTick s.pins) := by
  rw [step_of_run hlegal hrst, hready, commandPhase_of_accepted hvalid, acceptWord_of_error hdecode, andThen_next,
    tickPhase_eq]

end

/-- Settles O12: the decoded command is all that runs in the cycle, and a ready port has nothing outstanding. -/
theorem commandCycleRunsTheDecodedInstruction : Obligations.CommandCycleRunsTheDecodedInstruction := by
  unfold Obligations.CommandCycleRunsTheDecodedInstruction
  intro s i hlegal hrst htick hvalid hready hdecode
  obtain ⟨chs, r, hexec, -⟩ := exec_command (decodeCmd_channel hdecode) s.beginCycle
  have hstep := step_of_accepted_command hlegal hrst hvalid hready hdecode hexec
  rw [State.afterTick_of_no_tick htick] at hstep
  exact ⟨hstep.trans hexec.symm, s.beginCycle_chans, s.beginCycle_cfg, s.beginCycle_inputs,
    nextOutstanding_of_cmdReady hready⟩

/-- Settles O13: without an accepted command the TICK runs on the state at the cycle's start. -/
theorem tickCycleRunsTheTickInstruction : Obligations.TickCycleRunsTheTickInstruction := by
  unfold Obligations.TickCycleRunsTheTickInstruction
  intro s hlegal hrst htick hnot
  refine ⟨?_, s.beginCycle_chans, s.beginCycle_cfg⟩
  rw [step_of_not_accepted hlegal hrst hnot, State.afterTick_of_tick htick, exec_tick]

/-- Settles O20: the answer changes no channel, and the TICK runs on the answered state. -/
theorem illegalWordIsAnsweredAndWritesNothing : Obligations.IllegalWordIsAnsweredAndWritesNothing := by
  unfold Obligations.IllegalWordIsAnsweredAndWritesNothing
  intro s e hlegal hrst hvalid hready hdecode
  have hstep := step_of_accepted_illegal hlegal hrst hvalid hready hdecode
  refine ⟨s.beginCycle.withResponse (.bare .illegal), State.answered_withResponse _ _, rfl, fun htick => ?_,
    fun htick => ?_⟩
  · rw [hstep, State.afterTick_of_no_tick htick]
  · rw [State.afterTick_of_tick htick] at hstep
    exact ⟨_, hstep, hstep, State.ticked_outstanding ..⟩

/-- Settles O17: a cycle outside reset accepts no command either way, and no other kind of cycle reads `cmd_valid`. -/
theorem commandOfferedWhileNotReadyIsNotAccepted : Obligations.CommandOfferedWhileNotReadyIsNotAccepted := by
  unfold Obligations.CommandOfferedWhileNotReadyIsNotAccepted
  intro ⟨cfg, chans, outstanding, inputs, freeIdx⟩ p rest hinputs hready
  obtain rfl : inputs = p :: rest := hinputs
  set s : State := ⟨cfg, chans, outstanding, p :: rest, freeIdx⟩
  set s' : State := { s with inputs := { p with cmdValid := false } :: rest }
  cases hlegal : s.legal with
  | false =>
    have hlegal' : s'.legal = false := hlegal
    rw [step_of_illegal hlegal, step_of_illegal hlegal']
  | true =>
    have hlegal' : s'.legal = true := hlegal
    cases hrst : s.pins.rst with
    | true =>
      have hrst' : s'.pins.rst = true := hrst
      rw [step_of_reset hlegal hrst, step_of_reset hlegal' hrst']
      rfl
    | false =>
      have hrst' : s'.pins.rst = false := hrst
      rw [step_of_not_accepted hlegal hrst (.inr hready), step_of_not_accepted hlegal' hrst' (.inl rfl)]
      rfl

/-! ## The outstanding response -/

theorem State.driven_of_outstanding_none {s : State} (h : s.outstanding = none) : s.driven = none := by
  simp [State.driven, State.responseDue, h]

/-- The response `r` has `n` cycles to wait, and no listed cycle resets the block. -/
structure State.Waits (r : Response) (n : Nat) (s : State) : Prop where
  legal       : s.legal = true
  outstanding : s.outstanding = some { rsp := r, wait := n }
  noReset     : ∀ p ∈ s.inputs, p.rst = false

section
variable {r : Response} {n : Nat} {s : State}

/-- While the wait lasts the port drives nothing and takes nothing (30_encoding.md R74). -/
theorem State.Waits.ports_of_wait (h : s.Waits r (n + 1)) : s.ports.rspValid = false ∧ s.ports.cmdReady = false := by
  have hdriven : s.driven = none := by simp [State.driven, State.responseDue, h.outstanding]
  rw [State.ports_rspValid, hdriven, State.ports_cmdReady, State.cmdReady_of_wait h.outstanding, Bool.and_false]
  exact ⟨rfl, rfl⟩

/-- When the wait is over the response is driven (30_encoding.md R74). -/
theorem State.Waits.driven_of_due (h : s.Waits r 0) : s.driven = some r := by
  simp [State.driven, pins_rst_false h.noReset, State.responseDue, h.outstanding]

/-- A cycle that accepts no command takes its pins and moves the response on; no reset is to come after it either. -/
theorem State.Waits.step_of_not_accepted (h : s.Waits r n) (hnot : s.pins.cmdValid = false ∨ s.cmdReady = false) :
    ∃ t, step s = .next t ∧ t.legal = true ∧ t.outstanding = nextOutstanding s.outstanding ∧
      ∀ p ∈ t.inputs, p.rst = false := by
  refine ⟨_, Machine.step_of_not_accepted h.legal (pins_rst_false h.noReset) hnot,
    State.legal_of_kept h.legal (by simp) (by simp), by simp, fun p hp => h.noReset p ?_⟩
  rw [State.afterTick_inputs, State.beginCycle_inputs] at hp
  exact List.mem_of_mem_tail hp

/-- One cycle of the wait, whatever it offers. -/
theorem State.Waits.step_of_wait (h : s.Waits r (n + 1)) : ∃ t, step s = .next t ∧ t.Waits r n := by
  obtain ⟨t, ht, hlegal, hout, hinputs⟩ := h.step_of_not_accepted (.inr (State.cmdReady_of_wait h.outstanding))
  exact ⟨t, ht, hlegal, by rw [hout, h.outstanding, nextOutstanding], hinputs⟩

/-- The cycle of delivery, without a command: afterwards the port is free again (30_encoding.md R74). -/
theorem State.Waits.step_of_due (h : s.Waits r 0) (hnot : s.pins.cmdValid = false) :
    ∃ t, step s = .next t ∧ t.outstanding = none ∧ t.ports.rspValid = false ∧ t.ports.cmdReady = true := by
  obtain ⟨t, ht, -, hout, hinputs⟩ := h.step_of_not_accepted (.inl hnot)
  have hnone : t.outstanding = none := by rw [hout, h.outstanding, nextOutstanding]
  refine ⟨t, ht, hnone, ?_, State.ports_cmdReady_of_none (pins_rst_false hinputs) hnone⟩
  rw [State.ports_rspValid, State.driven_of_outstanding_none hnone, Option.isSome_none]

/-- After `j` of the cycles to wait, the others are left. -/
theorem State.Waits.run (j : Nat) : ∀ {s : State}, s.Waits r (n + j) →
    ∃ t, Host.Core.run core j s = .next t ∧ t.Waits r n := by
  induction j with
  | zero => exact fun h => ⟨_, rfl, h⟩
  | succ j ih =>
    intro s h
    obtain ⟨u, hu, hwaits⟩ := h.step_of_wait
    rw [run_succ_of_step hu]
    exact ih hwaits

end

/-- Settles O18: the wait counts down cycle by cycle, then the response is driven, and the cycle that drives it leaves
nothing outstanding. -/
theorem responseIsDrivenForOneCycleAfterItsWait : Obligations.ResponseIsDrivenForOneCycleAfterItsWait := by
  unfold Obligations.ResponseIsDrivenForOneCycleAfterItsWait
  intro s r n hlegal hout hnoReset
  have hstart : s.Waits r n := ⟨hlegal, hout, hnoReset⟩
  constructor
  · intro j hj
    obtain ⟨m, rfl⟩ : ∃ m, n = m + 1 + j := ⟨n - 1 - j, by omega⟩
    obtain ⟨u, hu, hwaits⟩ := hstart.run j
    exact ⟨u, hu, hwaits.ports_of_wait⟩
  · rw [← Nat.zero_add n] at hstart
    obtain ⟨t, ht, hdue⟩ := hstart.run n
    obtain ⟨hvalid, hstatus, htag, hbits, hdata⟩ := State.ports_of_driven hdue.driven_of_due
    refine ⟨t, ht, hvalid, ?_, ?_, hbits, hdata, hdue.step_of_due⟩
    · rw [hstatus]
      cases r.status <;> rfl
    · rw [htag]
      cases r.tag <;> rfl

end Sys2Proof.Machine
end

section
/-! Proofs of the statements on DECODE's reads (10_state.md R22, R24) and on TICK: each channel on its own
(40_tick_sampler.md R102), the indicator's port (R118, 30_encoding.md R70), and the ticks after reset
(70_reset_and_hazards.md R231). -/

namespace Sys2Proof.Machine

/-- Settles O45: the grammar and the hash read no other field and no other entry. -/
theorem decodeReadsOnlyTheEntriesOfTheFrame : Obligations.DecodeReadsOnlyTheEntriesOfTheFrame := by
  unfold Obligations.DecodeReadsOnlyTheEntriesOfTheFrame
  intro cfg c d hs hl hraw
  exact (decodeResponse_congr cfg hl.symm (fun i h1 hi => (hraw i h1 hi).symm) hs.symm).symm

/-- Settles O49: channel `k` after a TICK is the step of channel `k` before it on level `k`. -/
theorem tickStepsEachChannelOnItsOwn : Obligations.TickStepsEachChannelOnItsOwn := by
  unfold Obligations.TickStepsEachChannelOnItsOwn
  intro s s' irIn irIn' k hcfg hchan hlevel
  refine ⟨_, _, exec_tick s irIn, exec_tick s' irIn', ?_⟩
  rw [State.ticked_getElem?, State.ticked_getElem?, hcfg, hchan, hlevel]

/-! ## The led port -/

theorem State.length_ports_led (s : State) : s.ports.led.length = s.nch := by
  rw [State.ports_led, List.length_map, State.nch]

/-- `led[k] = led_q` (30_encoding.md R70). -/
theorem State.ports_led_of_chan {s : State} {k : Nat} {c : Channel} (hc : s.chans[k]? = some c) :
    s.ports.led[k]? = some c.ledQ := by
  rw [State.ports_led, List.getElem?_map, hc, Option.map_some]

/-- Settles O59: the port is the list of the indicators, before and after the TICK, which mirrors the sample. -/
theorem ledPortShowsTheIndicator : Obligations.LedPortShowsTheIndicator := by
  unfold Obligations.LedPortShowsTheIndicator
  intro s irIn
  refine ⟨s.ticked irIn, exec_tick s irIn, s.length_ports_led,
    (State.length_ports_led _).trans (s.ticked_nch irIn), fun k c hc => ⟨State.ports_led_of_chan hc, ?_⟩⟩
  rw [State.ports_led_of_chan (s.ticked_of_chan irIn hc), tickStep_ledQ, decide_eq_decide.mpr sampleOf_eq_mark_iff]

/-! ## The first ticks after reset -/

/-- No frame has started in the channel, and its counter is at most `n`. -/
def Channel.Quiet (n : Nat) (c : Channel) : Prop := c.state = .idle ∧ c.length = 0 ∧ c.elapsedTicks.toNat ≤ n

section
variable {cfg : Config} {nch : Nat} (hlegal : configLegal nch cfg = true)
include hlegal

/-- Before the gap threshold a SPACE counts and a MARK is noise (40_tick_sampler.md R106, R107). -/
theorem Channel.Quiet.tickStep {n : Nat} {c : Channel} (h : c.Quiet n) (hgap : n + 1 < cfg.gapTicks) (smp : Sample) :
    (tickStep cfg smp c).Quiet (n + 1) := by
  obtain ⟨hs, hl, he⟩ := h
  obtain ⟨-, -, -, hw, hcap, -⟩ := configLegal_bounds hlegal
  have hroom : c.length.toNat < cfg.capacity := by
    rw [hl]
    exact Nat.lt_of_lt_of_le Nat.two_pos hcap
  have hcount : (inc cfg c.elapsedTicks).toNat ≤ n + 1 := (inc_le cfg hw _).trans (Nat.succ_le_succ he)
  rw [tickStep_of_idle cfg smp c hroom hs]
  cases smp with
  | space => simp [Channel.Quiet, Channel.stepIdle, hs, hl, hcount]
  | mark =>
    have hnoise : (inc cfg c.elapsedTicks).toNat < cfg.gapTicks := by omega
    simp [Channel.Quiet, Channel.stepIdle, hs, hl, hnoise]

/-- Fewer ticks than the threshold start no frame, whatever their levels. -/
theorem execTicks_quiet (ls : List Levels) : ∀ {s : State} {n : Nat}, s.cfg = cfg → (∀ c ∈ s.chans, c.Quiet n) →
    n + ls.length < cfg.gapTicks →
    ∃ t, execTicks ls s = .next t ∧ t.nch = s.nch ∧ ∀ c ∈ t.chans, c.Quiet (n + ls.length) := by
  induction ls with
  | nil => exact fun _ hquiet _ => ⟨_, rfl, rfl, hquiet⟩
  | cons l ls ih =>
    intro s n hcfg hquiet hgap
    rw [List.length_cons, Nat.add_comm ls.length 1, ← Nat.add_assoc] at hgap ⊢
    have hticked : ∀ d ∈ (s.ticked l).chans, d.Quiet (n + 1) := fun d hd => by
      obtain ⟨smp, c, hc, rfl⟩ := s.mem_ticked l hd
      rw [hcfg]
      exact (hquiet c hc).tickStep hlegal (by omega) smp
    obtain ⟨t, ht, hnch, ht'⟩ := ih ((s.ticked_cfg l).trans hcfg) hticked hgap
    exact ⟨t, by rw [execTicks, exec_tick, andThen_next, ht], hnch.trans (s.ticked_nch l), ht'⟩

end

theorem Channel.reset_quiet (cfg : Config) : (Channel.reset cfg).Quiet 0 := ⟨rfl, rfl, Nat.zero_le _⟩

/-- Settles O53: reset leaves every channel quiet at 0, and the ticks keep them so. -/
theorem noFrameStartsBeforeTheGapAfterReset : Obligations.NoFrameStartsBeforeTheGapAfterReset := by
  unfold Obligations.NoFrameStartsBeforeTheGapAfterReset
  intro nch cfg ls hlegal hgap
  have hreset : ∀ c ∈ (State.resetOf nch cfg).chans, c.Quiet 0 := fun c hc => by
    rw [State.mem_resetOf hc]
    exact Channel.reset_quiet cfg
  obtain ⟨t, ht, hnch, hquiet⟩ := execTicks_quiet hlegal ls rfl hreset (by omega)
  rw [Nat.zero_add] at hquiet
  exact ⟨t, ht, hnch.trans (State.resetOf_nch nch cfg), hquiet⟩

end Sys2Proof.Machine
end
